-- ==== Sys2Proof/Word.lean ====
section
/-! DEFINITION. The block's fixed widths (00_scope.md R6). -/

namespace Sys2Proof

/-- A MIDI byte or an opcode, 8 bits, unsigned (R6). -/
abbrev Byte := BitVec 8

/-- A raw command and the assembler's accumulator, 24 bits (R6, R58). -/
abbrev Raw := BitVec 24

/-- An event word, 32 bits (R6, R60). -/
abbrev EventWord := BitVec 32

/-- A ring-buffer or queue position, 16 bits (R6); also an operand count below 65536 (R67, D44). -/
abbrev Pos := BitVec 16

end Sys2Proof
end

