-- ==== Sys2Proof/Config.lean ====
section
/-! DEFINITION. The implementation parameters (00_scope.md R5). They are arguments of the model: plain data that
State carries and no operation writes, so that a statement over all states holds for every value (log 1). -/

namespace Sys2Proof

/-- The six parameters of R5. -/
structure Params where
  /-- `RB_CAPACITY`, shared by every ring. -/
  rbCapacity : Nat
  /-- `NUM_RB`, the number of RingBuffer instances. -/
  numRb : Nat
  /-- `EQ_DEPTH`, the number of slots of the EventQueue's entry file. -/
  eqDepth : Nat
  /-- `LEN_TABLE`, 256 entries, the entry of byte `b` at place `b` (R56, R57). -/
  lenTable : List Nat
  /-- `RUNNING_STATUS` (D7). -/
  runningStatus : Bool
  /-- `RB_RESET_ON_EMPTY` (D17). -/
  rbResetOnEmpty : Bool
  deriving DecidableEq, Repr

/-- The legal ranges of R5. -/
abbrev Params.WF (p : Params) : Prop :=
  (2 ≤ p.rbCapacity ∧ p.rbCapacity ≤ 65536) ∧ (1 ≤ p.numRb ∧ p.numRb ≤ 16) ∧
  (2 ≤ p.eqDepth ∧ p.eqDepth ≤ 65536) ∧ p.lenTable.length = 256

end Sys2Proof
end

