-- ==== Sys2Proof/Syntax.lean ====
section
/-! DEFINITION. The operations of the block, one constructor per row of the opcode table, and the requests that
carry them (30_encoding.md R53, R66, R67). -/

namespace Sys2Proof

/-- The ports of R9. -/
inductive Port where
  | ctl
  | asmIn
  | rbProd (inst : Nat)
  | rbCons (inst : Nat)
  | eqPush
  | eqPop
  | arbIn
  deriving DecidableEq, Repr

/-- One constructor per row of the opcode table. The first 19 are the operations of R67 with their operands; the
other 24 are the MIDI byte decodes of R53: what `ASM.in` does with a byte of that form (log 8). -/
inductive Instr where
  /-- R119 -/
  | topReset
  /-- R120 -/
  | topStatus
  /-- R73 -/
  | asmFeed (b : Byte)
  /-- R88 -/
  | rbWrite (inst : Nat) (data : List Byte)
  /-- R93 -/
  | rbGetWriteWindow (inst : Nat)
  /-- R94 -/
  | rbCommitWrite (inst : Nat) (data : List Byte)
  /-- R95 -/
  | rbTowrite (inst : Nat)
  /-- R89 -/
  | rbRead (inst : Nat) (n : Pos)
  /-- R90 -/
  | rbPeek (inst : Nat) (n : Pos)
  /-- R91 -/
  | rbGetReadWindow (inst : Nat)
  /-- R92 -/
  | rbConsume (inst : Nat) (k : Pos)
  /-- R97 -/
  | rbToread (inst : Nat)
  /-- R98 -/
  | rbStatus (inst : Nat)
  /-- R103 -/
  | eqPush (word : EventWord)
  /-- R104 -/
  | eqPop
  /-- R107 -/
  | eqPushBack
  /-- R106 -/
  | eqStatus
  /-- R115 -/
  | arbSample (usb bus : Bool)
  /-- R117 -/
  | arbOutcome
  /-- A data byte 0x00 to 0x7F (R79, R80). -/
  | midiData (value : BitVec 7)
  /-- 0x80 to 0x8F (R77, R78), and so on for the seven classes of R55. -/
  | midiCvNoteOff (channel : BitVec 4)
  | midiCvNoteOn (channel : BitVec 4)
  | midiCvPolyPressure (channel : BitVec 4)
  | midiCvControlChange (channel : BitVec 4)
  | midiCvProgramChange (channel : BitVec 4)
  | midiCvChannelPressure (channel : BitVec 4)
  | midiCvPitchBend (channel : BitVec 4)
  /-- 0xF0 (R76) -/
  | midiSysexStart
  /-- 0xF7 (R82) -/
  | midiSysexEnd
  /-- The one-byte system messages (R81). -/
  | midiSysF1
  | midiSysF2
  | midiSysF3
  | midiSysF4
  | midiSysF5
  | midiSysF6
  | midiSysF8
  | midiSysF9
  | midiSysFA
  | midiSysFB
  | midiSysFC
  | midiSysFD
  | midiSysFE
  | midiSysFF
  deriving DecidableEq, Repr

/-- The operand fields of a request: separate from the opcode (R66). An operation reads the fields R67 lists for it
and no other (log 9). -/
structure Operands where
  b : Byte := 0
  inst : Nat := 0
  /-- `n` of RB_READ and RB_PEEK, `k` of RB_CONSUME. -/
  count : Pos := 0
  data : List Byte := []
  word : EventWord := 0
  usb : Bool := false
  bus : Bool := false
  deriving DecidableEq, Repr

/-- An operation as an agent issues it: a port, an 8-bit opcode and the operand fields (R66). -/
structure Request where
  port : Port
  opcode : Byte
  operands : Operands := {}
  deriving DecidableEq, Repr

/-- What reaches the block in one step: a request, or one byte of a FEED_STREAM at `ASM.in` (R71). -/
inductive Transaction where
  | op (r : Request)
  | midiByte (b : Byte)
  deriving DecidableEq, Repr

end Sys2Proof
end

