-- ==== Sys2Proof/Decode.lean ====
section
/-! DEFINITION. Decoding of requests and MIDI bytes, the encoder beside it, the default length table, and the reading of
an opcode-table word (30_encoding.md R53, R56, R66 to R68). -/

namespace Sys2Proof

/-- The port R67 gives each operation; the MIDI byte decodes belong to `ASM.in` (R9). -/
def Instr.port : Instr → Port
  | .topReset | .topStatus => .ctl
  | .asmFeed _ => .asmIn
  | .rbWrite i _ | .rbGetWriteWindow i | .rbCommitWrite i _ | .rbTowrite i => .rbProd i
  | .rbRead i _ | .rbPeek i _ | .rbGetReadWindow i | .rbConsume i _ | .rbToread i | .rbStatus i => .rbCons i
  | .eqPush _ => .eqPush
  | .eqPop | .eqPushBack | .eqStatus => .eqPop
  | .arbSample _ _ | .arbOutcome => .arbIn
  | _ => .asmIn

/-- The opcode map of R67, matched exactly on all 8 bits. -/
def decodeOpcode (opcode : Byte) (o : Operands) : Option Instr :=
  match opcode.toNat with
  | 0x01 => some .topReset
  | 0x02 => some .topStatus
  | 0x10 => some (.asmFeed o.b)
  | 0x20 => some (.rbWrite o.inst o.data)
  | 0x21 => some (.rbGetWriteWindow o.inst)
  | 0x22 => some (.rbCommitWrite o.inst o.data)
  | 0x23 => some (.rbTowrite o.inst)
  | 0x28 => some (.rbRead o.inst o.count)
  | 0x29 => some (.rbPeek o.inst o.count)
  | 0x2A => some (.rbGetReadWindow o.inst)
  | 0x2B => some (.rbConsume o.inst o.count)
  | 0x2C => some (.rbToread o.inst)
  | 0x2D => some (.rbStatus o.inst)
  | 0x30 => some (.eqPush o.word)
  | 0x38 => some .eqPop
  | 0x39 => some .eqPushBack
  | 0x3A => some .eqStatus
  | 0x40 => some (.arbSample o.usb o.bus)
  | 0x41 => some .arbOutcome
  | _ => none

/-- Why a request is no operation of the block (R68). An instance at or above NUM_RB and a pushed word of kind None are
illegal as well; the operations themselves check them first (41_ring_buffer.md, R103; log 12). -/
inductive Reject where
  /-- "an opcode not in rule R67" -/
  | unassignedOpcode (opcode : Byte)
  /-- "an opcode issued on a port other than the one rule R67 gives it" -/
  | wrongPort (opcode : Byte) (port : Port)
  deriving DecidableEq, Repr

/-- R68: exact decoding of a request. -/
def decodeRequest (r : Request) : Except Reject Instr :=
  match decodeOpcode r.opcode r.operands with
  | none => .error (.unassignedOpcode r.opcode)
  | some i => if i.port = r.port then .ok i else .error (.wrongPort r.opcode r.port)

/-- The one-byte and bracket bytes 0xF0 to 0xFF by their low nibble (R53). -/
def decodeSystemByte (low : BitVec 4) : Instr :=
  match low.toNat with
  | 0x0 => .midiSysexStart
  | 0x1 => .midiSysF1
  | 0x2 => .midiSysF2
  | 0x3 => .midiSysF3
  | 0x4 => .midiSysF4
  | 0x5 => .midiSysF5
  | 0x6 => .midiSysF6
  | 0x7 => .midiSysexEnd
  | 0x8 => .midiSysF8
  | 0x9 => .midiSysF9
  | 0xA => .midiSysFA
  | 0xB => .midiSysFB
  | 0xC => .midiSysFC
  | 0xD => .midiSysFD
  | 0xE => .midiSysFE
  | _ => .midiSysFF

/-- R53, R55: the MIDI row of a byte. Bit 7 clear is data; else bits [7:4] are the class and bits [3:0] the channel. -/
def decodeMidiByte (b : Byte) : Instr :=
  let channel := b.extractLsb' 0 4
  match (b.extractLsb' 4 4).toNat with
  | 0x8 => .midiCvNoteOff channel
  | 0x9 => .midiCvNoteOn channel
  | 0xA => .midiCvPolyPressure channel
  | 0xB => .midiCvControlChange channel
  | 0xC => .midiCvProgramChange channel
  | 0xD => .midiCvChannelPressure channel
  | 0xE => .midiCvPitchBend channel
  | 0xF => decodeSystemByte channel
  | _ => .midiData (b.extractLsb' 0 7)

/-- The decoder, total on every transaction. -/
def decode : Transaction → Except Reject Instr
  | .op r => decodeRequest r
  | .midiByte b => .ok (decodeMidiByte b)

/-- The port a transaction is issued on. -/
def Transaction.port : Transaction → Port
  | .op r => r.port
  | .midiByte _ => .asmIn

/-- The encoder, from the tables of R53 and R67; operand fields an operation lacks are 0. -/
def encode (i : Instr) : Transaction :=
  match i with
  | .topReset => .op { port := i.port, opcode := 0x01 }
  | .topStatus => .op { port := i.port, opcode := 0x02 }
  | .asmFeed b => .op { port := i.port, opcode := 0x10, operands := { b := b } }
  | .rbWrite inst data => .op { port := i.port, opcode := 0x20, operands := { inst := inst, data := data } }
  | .rbGetWriteWindow inst => .op { port := i.port, opcode := 0x21, operands := { inst := inst } }
  | .rbCommitWrite inst data => .op { port := i.port, opcode := 0x22, operands := { inst := inst, data := data } }
  | .rbTowrite inst => .op { port := i.port, opcode := 0x23, operands := { inst := inst } }
  | .rbRead inst count => .op { port := i.port, opcode := 0x28, operands := { inst := inst, count := count } }
  | .rbPeek inst count => .op { port := i.port, opcode := 0x29, operands := { inst := inst, count := count } }
  | .rbGetReadWindow inst => .op { port := i.port, opcode := 0x2A, operands := { inst := inst } }
  | .rbConsume inst count => .op { port := i.port, opcode := 0x2B, operands := { inst := inst, count := count } }
  | .rbToread inst => .op { port := i.port, opcode := 0x2C, operands := { inst := inst } }
  | .rbStatus inst => .op { port := i.port, opcode := 0x2D, operands := { inst := inst } }
  | .eqPush word => .op { port := i.port, opcode := 0x30, operands := { word := word } }
  | .eqPop => .op { port := i.port, opcode := 0x38 }
  | .eqPushBack => .op { port := i.port, opcode := 0x39 }
  | .eqStatus => .op { port := i.port, opcode := 0x3A }
  | .arbSample usb bus => .op { port := i.port, opcode := 0x40, operands := { usb := usb, bus := bus } }
  | .arbOutcome => .op { port := i.port, opcode := 0x41 }
  | .midiData v => .midiByte (0#1 ++ v)
  | .midiCvNoteOff c => .midiByte (0x8#4 ++ c)
  | .midiCvNoteOn c => .midiByte (0x9#4 ++ c)
  | .midiCvPolyPressure c => .midiByte (0xA#4 ++ c)
  | .midiCvControlChange c => .midiByte (0xB#4 ++ c)
  | .midiCvProgramChange c => .midiByte (0xC#4 ++ c)
  | .midiCvChannelPressure c => .midiByte (0xD#4 ++ c)
  | .midiCvPitchBend c => .midiByte (0xE#4 ++ c)
  | .midiSysexStart => .midiByte 0xF0
  | .midiSysexEnd => .midiByte 0xF7
  | .midiSysF1 => .midiByte 0xF1
  | .midiSysF2 => .midiByte 0xF2
  | .midiSysF3 => .midiByte 0xF3
  | .midiSysF4 => .midiByte 0xF4
  | .midiSysF5 => .midiByte 0xF5
  | .midiSysF6 => .midiByte 0xF6
  | .midiSysF8 => .midiByte 0xF8
  | .midiSysF9 => .midiByte 0xF9
  | .midiSysFA => .midiByte 0xFA
  | .midiSysFB => .midiByte 0xFB
  | .midiSysFC => .midiByte 0xFC
  | .midiSysFD => .midiByte 0xFD
  | .midiSysFE => .midiByte 0xFE
  | .midiSysFF => .midiByte 0xFF

/-- `LEN_TABLE_DEFAULT` (R56): 2 for 0x80 to 0xBF, 1 for 0xC0 to 0xDF, 2 for 0xE0 to 0xEF, 0 elsewhere. -/
def lenTableDefault : List Nat :=
  List.replicate 0x80 0 ++ List.replicate 0x40 2 ++ List.replicate 0x20 1 ++ List.replicate 0x10 2 ++ List.replicate 0x10 0

/-- The transaction that an opcode-table word stands for: the table numbers only the opcode (or the MIDI byte), so every
operand field is 0. A byte that is an opcode of R67 is read as that operation, on the port R67 gives it; any other byte is
a MIDI byte (log 8, log 17). -/
def tableTransaction (nbits w : Nat) : Option Transaction :=
  let bits := w % 2 ^ nbits
  if bits < 256 then
    let b : Byte := BitVec.ofNat 8 bits
    match decodeOpcode b {} with
    | some i => some (.op { port := i.port, opcode := b })
    | none => some (.midiByte b)
  else none

/-- The instruction the decoder reads from an opcode-table word. -/
def decodeTableWord (nbits w : Nat) : Option Instr :=
  match tableTransaction nbits w with
  | some t => (decode t).toOption
  | none => none

end Sys2Proof
end

