-- ==== Sys2Proof/Machine/State.lean ====
section
/-! DEFINITION. The state of the block (10_state.md), what stands outside it (agents, their pending operations, the
interleaving), the reasons a step can stop, and the state after reset (R141). -/

namespace Sys2Proof.Machine

/-- Storage as plain data: (index, value) in strictly rising index order. An index that is not listed has not been
written since reset and has no value (R40; log 2). `Memory Byte` is a list of `Host.Cell`. -/
abbrev Memory (α : Type) := List (Nat × α)

/-- The canonical form of a memory: strictly rising indices. -/
def Memory.wf {α : Type} : Memory α → Bool
  | [] => true
  | [_] => true
  | c :: d :: m => decide (c.1 < d.1) && Memory.wf (d :: m)

/-- The MidiAssembler's five fields (R14). -/
structure Assembler where
  /-- `ASM.awaiting_sysex_end` (R15) -/
  awaitingSysexEnd : Bool
  /-- `ASM.pending_status` (R16) -/
  pendingStatus : Byte
  /-- `ASM.pending_len_remaining` (R17) -/
  pendingLenRemaining : BitVec 8
  /-- `ASM.offset` (R18) -/
  offset : BitVec 8
  /-- `ASM.accumulator` (R19) -/
  accumulator : Raw
  deriving DecidableEq, Repr

/-- One RingBuffer instance (R20). -/
structure Ring where
  readPos : Pos
  writePos : Pos
  writeLock : Bool
  /-- sticky (R129) -/
  rbFault : Bool
  /-- `RB[i].storage` (R37) -/
  storage : Memory Byte
  deriving DecidableEq, Repr

/-- The EventQueue (R23 to R26). -/
structure EventQueue where
  rd : Pos
  wr : Pos
  /-- `EQ.entry` (R38) -/
  entry : Memory EventWord
  /-- the lookahead slot (R24) -/
  slot : EventWord
  slotValid : Bool
  /-- the last event delivered from the entry file (R25) -/
  last : EventWord
  pbArmed : Bool
  /-- sticky (R26) -/
  eqOverflow : Bool
  /-- sticky (R26) -/
  pbFault : Bool
  deriving DecidableEq, Repr

/-- The ConnectionArbiter's stored pair (R28). -/
structure Arbiter where
  prevUsb : Bool
  prevBus : Bool
  deriving DecidableEq, Repr

/-- The agents' labels (R70). -/
inductive Agent where
  | prod (i : Nat)
  | cons (i : Nat)
  | main
  | isr
  | ctl
  deriving DecidableEq, Repr

/-- Which agent owns each port (R9, R143). `EQ.push` is a merge point and has no owner. -/
structure Binding where
  ctl : Agent
  asmIn : Agent
  eqPop : Agent
  arbIn : Agent
  /-- the owner of `RB[i].prod` at place `i` -/
  prod : List Agent
  /-- the owner of `RB[i].cons` at place `i` -/
  cons : List Agent
  deriving DecidableEq, Repr

/-- What an agent has yet to do: an operation, or a pseudo-operation of R71. -/
inductive Issue where
  | op (r : Request)
  /-- FEED_STREAM, less the bytes already fed -/
  | feedStream (bytes : List Byte)
  /-- DRAIN inst, n -/
  | drain (inst : Nat) (n : Pos)
  deriving DecidableEq, Repr

/-- One item of an agent's issue order (R10). -/
structure Pending where
  agent : Agent
  issue : Issue
  deriving DecidableEq, Repr

/-- One choice of the interleaving (R10): an agent moves, or the reset input is applied (R141). -/
inductive Turn where
  | agent (a : Agent)
  | resetInput
  deriving DecidableEq, Repr

/-- The response fields of R67 and the `faulted` bit of R66. An operation answers in its own fields and the others are 0
(log 3). -/
structure Response where
  faulted : Bool := false
  /-- `status: 8` of TOP_STATUS and RB_STATUS -/
  status8 : BitVec 8 := 0
  /-- `status: 32` of EQ_STATUS -/
  status32 : BitVec 32 := 0
  emitted : Bool := false
  raw : Raw := 0
  accepted : Bool := false
  written : Nat := 0
  committed : Nat := 0
  consumed : Nat := 0
  /-- RB_TOREAD and RB_TOWRITE -/
  count : Nat := 0
  start : Nat := 0
  len : Nat := 0
  data : List Byte := []
  ok : Bool := false
  word : EventWord := 0
  outcome : BitVec 2 := 0
  pushed : Bool := false
  deriving DecidableEq, Repr

/-- The faults of R128 as a fault set records them. They are no stop of the machine: the run goes on (R127, R140). -/
inductive FaultCode where
  | illegalOp
  | rbWriteWhileLocked
  | rbCommitNotLocked
  | rbCommitOversize
  | rbConsumeOversize
  | pushbackIllegal
  | eqOverflow
  deriving DecidableEq, Repr

/-- The state. The first block of fields is the hardware's, the rest the model's own. -/
structure State where
  /-- the parameters (R5), written by no operation -/
  params : Params
  asm : Assembler
  /-- `RB[0]` to `RB[NUM_RB − 1]` -/
  rings : List Ring
  queue : EventQueue
  arb : Arbiter
  /-- `TOP.illegal_op` (R29), sticky -/
  illegalOp : Bool
  /-- reset has been applied (R143) -/
  resetDone : Bool
  /-- the response of the latest operation -/
  response : Response
  /-- the fault set of R140, in code order -/
  faults : List FaultCode
  binding : Binding
  /-- the agents' operations still to come, each agent's in its issue order (R10) -/
  pending : List Pending
  /-- the interleaving still to come (R10) -/
  schedule : List Turn
  deriving DecidableEq, Repr

/-- Why the machine stops. These are the model's, not the block's faults of R128. -/
inductive Fault where
  /-- A byte of `RB[inst].storage` that was not written since reset is read. Raised by RB_READ, RB_PEEK and
  RB_GET_READ_WINDOW. Safe: R40 says a model that "faults on reading one, is also correct", and no state that meets the
  invariant of Safety.lean raises it. -/
  | unwrittenStorage (inst : Nat)
  /-- A slot of `EQ.entry` that was not written since reset is read. Raised by EQ_POP. Safe, as above. -/
  | unwrittenEntry
  deriving DecidableEq, Repr

/-- Why a step is no step of a run. -/
inductive Refusal where
  /-- An instruction without a meaning yet. Raised by no arm of `exec` today. Safe. -/
  | notModelled (mnemonic : String)
  /-- An operation issued before the first reset (R11, R143: "a model refuses any operation issued before it"). Raised by
  the step. Safe. -/
  | beforeFirstReset
  /-- An operation by an agent on a port that another agent owns (R11, R102). Raised by the step. Safe. -/
  | portOwnedByAnother (port : Port)
  deriving DecidableEq, Repr

/-- The outcome of an operation. -/
abbrev Result := Host.Outcome State Fault Refusal

/-- R14, R141 -/
def Assembler.reset : Assembler where
  awaitingSysexEnd := false
  pendingStatus := 0x00
  pendingLenRemaining := 0
  offset := 8
  accumulator := 0x000000

/-- R20, R141; the storage is unspecified (R40), so nothing is listed. -/
def Ring.reset : Ring where
  readPos := 0
  writePos := 0
  writeLock := false
  rbFault := false
  storage := []

/-- R23 to R26, R141; the entries are unspecified (R40), so nothing is listed. -/
def EventQueue.reset : EventQueue where
  rd := 0
  wr := 0
  entry := []
  slot := 0x00000000
  slotValid := false
  last := 0x00000000
  pbArmed := false
  eqOverflow := false
  pbFault := false

/-- R28, R141 -/
def Arbiter.reset : Arbiter where
  prevUsb := false
  prevBus := false

/-- The parameter values that `State.reset` carries: the conventions of 95_test_vectors.md (DESIGN CHOICE, log 1). -/
def conventions : Params where
  rbCapacity := 4
  numRb := 1
  eqDepth := 4
  lenTable := lenTableDefault
  runningStatus := true
  rbResetOnEmpty := true

/-- The default wiring of R122 (a), (b) with `n` inbound instances (DESIGN CHOICE, log 6). -/
def Binding.defaultWiring (n : Nat) : Binding where
  ctl := .ctl
  asmIn := .main
  eqPop := .main
  arbIn := .isr
  prod := (List.range n).map Agent.prod
  cons := List.replicate n .main

/-- The machine right after reset (R141), with nothing pending (log 5). -/
def State.reset : State where
  params := conventions
  asm := .reset
  rings := List.replicate conventions.numRb .reset
  queue := .reset
  arb := .reset
  illegalOp := false
  resetDone := true
  response := {}
  faults := []
  binding := .defaultWiring conventions.numRb
  pending := []
  schedule := []

end Sys2Proof.Machine
end

