-- ==== Sys2Proof/Machine/Ops.lean ====
section
/-! DEFINITION. The named operations over storage and state, and the one way a fault of the block is taken. -/

namespace Sys2Proof.Machine

/-! Storage (20_memory.md R37 to R39) -/

/-- MemRead of one location: its value, if it has been written since reset (R39, R40). -/
def Memory.read {α : Type} : Memory α → Nat → Option α
  | [], _ => none
  | c :: m, a => if c.1 = a then some c.2 else Memory.read m a

/-- MemWrite of one location (R39). It keeps the canonical form. -/
def Memory.write {α : Type} : Memory α → Nat → α → Memory α
  | [], a, v => [(a, v)]
  | c :: m, a, v =>
    if a < c.1 then (a, v) :: c :: m
    else if a = c.1 then (a, v) :: m
    else c :: Memory.write m a v

/-- The `k` values at `p mod size`, `(p + 1) mod size`, ... (R37, R38). -/
def readCells {α : Type} (size : Nat) (m : Memory α) (p : Nat) : Nat → Option (List α)
  | 0 => some []
  | k + 1 =>
    match Memory.read m (p % size), readCells size m (p + 1) k with
    | some v, some vs => some (v :: vs)
    | _, _ => none

/-- Writes values at `p mod size`, `(p + 1) mod size`, ... (R37). -/
def writeCells {α : Type} (size : Nat) (m : Memory α) (p : Nat) : List α → Memory α
  | [] => m
  | v :: vs => writeCells size (Memory.write m (p % size) v) (p + 1) vs

/-! Positions (R21, R27): differences are taken over the integers and reduced to the non-negative remainder (R7). -/

/-- `(a − b) mod m`. -/
def modSub (a b : Pos) (m : Nat) : Nat := (((a.toNat : Int) - b.toNat) % m).toNat

/-- `(p + k) mod m`. -/
def modAdd (p : Pos) (k m : Nat) : Pos := BitVec.ofNat 16 ((p.toNat + k) % m)

/-! Named updates of State -/

def State.setAsm (s : State) (a : Assembler) : State := { s with asm := a }
def State.setQueue (s : State) (q : EventQueue) : State := { s with queue := q }
def State.setArb (s : State) (a : Arbiter) : State := { s with arb := a }
def State.setIllegalOp (s : State) (b : Bool) : State := { s with illegalOp := b }
def State.setFaults (s : State) (f : List FaultCode) : State := { s with faults := f }
def State.setPending (s : State) (p : List Pending) : State := { s with pending := p }
def State.setSchedule (s : State) (t : List Turn) : State := { s with schedule := t }

/-- The operation's response (R67). -/
def State.respond (s : State) (r : Response) : State := { s with response := r }

/-- `RB[i]`. -/
def State.ring (s : State) (i : Nat) : Ring := s.rings.getD i Ring.reset

def State.setRing (s : State) (i : Nat) (r : Ring) : State := { s with rings := s.rings.set i r }

/-! Taking a fault of the block (60_exceptions.md R127 to R131) -/

/-- `raise <Fault>(info)` of R8: the fault, with the ring whose flag it sets. -/
inductive BlockFault where
  | illegalOp
  | rbWriteWhileLocked (inst : Nat)
  | rbCommitNotLocked (inst : Nat)
  | rbCommitOversize (inst : Nat)
  | rbConsumeOversize (inst : Nat)
  | pushbackIllegal
  | eqOverflow
  deriving DecidableEq, Repr

/-- The fault as the fault set records it (R128). -/
def BlockFault.code : BlockFault → FaultCode
  | .illegalOp => .illegalOp
  | .rbWriteWhileLocked _ => .rbWriteWhileLocked
  | .rbCommitNotLocked _ => .rbCommitNotLocked
  | .rbCommitOversize _ => .rbCommitOversize
  | .rbConsumeOversize _ => .rbConsumeOversize
  | .pushbackIllegal => .pushbackIllegal
  | .eqOverflow => .eqOverflow

/-- The code column of R128. -/
def FaultCode.number : FaultCode → Nat
  | .illegalOp => 1
  | .rbWriteWhileLocked => 2
  | .rbCommitNotLocked => 3
  | .rbCommitOversize => 4
  | .rbConsumeOversize => 5
  | .pushbackIllegal => 6
  | .eqOverflow => 7

/-- Adds a fault to the fault set, kept in code order with no repeats (R140). -/
def insertFault (c : FaultCode) : List FaultCode → List FaultCode
  | [] => [c]
  | d :: ds =>
    if c = d then d :: ds
    else if c.number < d.number then c :: d :: ds
    else d :: insertFault c ds

/-- The sticky flag of one ring. -/
def State.setRbFault (s : State) (i : Nat) : State := s.setRing i { s.ring i with rbFault := true }

/-- The flag column of R128: a fault sets its own flag and no other. -/
def State.setFlag (s : State) : BlockFault → State
  | .illegalOp => s.setIllegalOp true
  | .rbWriteWhileLocked i | .rbCommitNotLocked i | .rbCommitOversize i | .rbConsumeOversize i => s.setRbFault i
  | .pushbackIllegal => s.setQueue { s.queue with pbFault := true }
  | .eqOverflow => s.setQueue { s.queue with eqOverflow := true }

/-- Taking a fault: the sticky flag is set and the fault recorded (R8, R127, R129, R140). There is no trap, so nothing is
saved and there is nothing to return from (R127, R137). -/
def raise (f : BlockFault) (s : State) : State :=
  (s.setFlag f).setFaults (insertFault f.code s.faults)

/-- The response of a faulted operation: `faulted = 1` and every other field 0 (R66, R121). -/
def Response.fault : Response := { faulted := true }

/-- A fault that rejects the operation that raised it: its flag, and the faulted response (R11 (b), R127). -/
def reject (f : BlockFault) (s : State) : State := (raise f s).respond Response.fault

/-! Reset (70_reset_and_hazards.md R141) -/

/-- Reset: every field of 10_state.md takes its reset value in one step, the storage becomes unspecified again (R119 (c)).
The parameters, the binding, what agents have yet to do and the fault set are not state of the block and stay (log 10). -/
def blockReset (s : State) : State :=
  { s with
    asm := .reset
    rings := List.replicate s.params.numRb .reset
    queue := .reset
    arb := .reset
    illegalOp := false
    resetDone := true
    response := {} }

end Sys2Proof.Machine
end

