-- ==== Sys2Proof/Machine/Operands.lean ====
section
/-! DEFINITION. The operand forms: byte classes and table lookup (30_encoding.md R53, R56, R57), the MidiCommand view of a
raw command (R58, R59), event words (R60 to R63), the instance operand (41_ring_buffer.md, first paragraph), and the derived counts of a ring and of the queue (R21, R27, R87). -/

namespace Sys2Proof.Machine

/-! MIDI bytes -/

/-- The five classes of R53. -/
inductive ByteClass where
  | data
  | cvStatus
  | sysexStart
  | sysexEnd
  | sysOneByte
  deriving DecidableEq, Repr

/-- R53, with the bounds of C1 and C3. -/
def byteClass (b : Byte) : ByteClass :=
  if b.toNat < 0x80 then .data
  else if b.toNat < 0xF0 then .cvStatus
  else if b.toNat = 0xF0 then .sysexStart
  else if b.toNat = 0xF7 then .sysexEnd
  else .sysOneByte

/-- `LEN_TABLE[b]` (R56, R57). -/
def lenOf (p : Params) (b : Byte) : Nat := p.lenTable.getD b.toNat 0

/-- `zext_24(b)` (R7). -/
def zext24 (b : Byte) : Raw := b.setWidth 24

/-! The MidiCommand view of a raw command (R58, R59) -/

/-- `status = raw[7:0]`, with the channel. -/
def rawStatus (r : Raw) : Byte := r.extractLsb' 0 8

/-- `data0 = raw[15:8]`. -/
def rawData0 (r : Raw) : Byte := r.extractLsb' 8 8

/-- `data1 = raw[23:16]`. -/
def rawData1 (r : Raw) : Byte := r.extractLsb' 16 8

/-- The command class, `status & 0xF0`. -/
def commandClass (r : Raw) : Byte := rawStatus r &&& 0xF0

/-- The channel, `status & 0x0F`. -/
def commandChannel (r : Raw) : Byte := rawStatus r &&& 0x0F

/-- How many data bytes a command of this status has: `LEN_TABLE[status]` for a channel-voice status, none for a one-byte
system message (R57). R59 gives no length to a data byte or a bracket byte, which start no command. -/
def definedLength (p : Params) (status : Byte) : Option Nat :=
  match byteClass status with
  | .cvStatus => some (lenOf p status)
  | .sysOneByte => some 0
  | .data | .sysexStart | .sysexEnd => none

/-- The length of a command's minimal byte form: its status byte and its data bytes. -/
def byteFormLength (p : Params) (r : Raw) : Option Nat := (definedLength p (rawStatus r)).map (1 + ·)

/-- "data1 valid only if the command's defined length is 2". -/
def data1Valid (p : Params) (r : Raw) : Bool := decide (definedLength p (rawStatus r) = some 2)

/-! Event words -/

/-- Bits [31:24] of an event word (R60). -/
def eventKind (w : EventWord) : Byte := w.extractLsb' 24 8

/-- `{kind, payload}` (R60). -/
def eventWord (kind : Byte) (payload : Raw) : EventWord := kind ++ payload

/-- The kind codes of R61. -/
def kindNone : Byte := 0x00
def kindMidi : Byte := 0x01
def kindConnectionChanged : Byte := 0x02

/-- The outcome of the arbiter (R113). -/
inductive Connectivity where
  | none
  | single
  | both
  deriving DecidableEq, Repr

/-- The outcome code of R63; 0b11 is never produced. -/
def Connectivity.code : Connectivity → BitVec 2
  | .none => 0b00
  | .single => 0b01
  | .both => 0b10

/-- `classify(usb, bus)` (R113). -/
def classify (usb bus : Bool) : Connectivity :=
  if usb && bus then .both else if usb || bus then .single else .none

/-- The payload of a ConnectionChanged event (R63): `{zeros(19), outcome_changed, outcome, bus, usb}`. -/
def connectionPayload (usb bus changed : Bool) (o : Connectivity) : Raw :=
  0#19 ++ BitVec.ofBool changed ++ o.code ++ BitVec.ofBool bus ++ BitVec.ofBool usb

/-! The instance operand -/

/-- Every RingBuffer operation first checks `inst < NUM_RB`; if the check fails it is ILLEGAL_OP (R121) and has no other
effect. -/
def withInstance (inst : Nat) (s : State) (run : Ring → Result) : Result :=
  if inst < s.params.numRb then run (s.ring inst) else .next (reject .illegalOp s)

/-! Counts and runs of a ring (R87) -/

/-- Bytes readable. -/
def toread (p : Params) (r : Ring) : Nat := modSub r.writePos r.readPos p.rbCapacity

/-- Bytes writable. -/
def towrite (p : Params) (r : Ring) : Nat := p.rbCapacity - 1 - toread p r

/-- The longest contiguous readable run from `read_pos`. -/
def readRun (p : Params) (r : Ring) : Nat :=
  if r.readPos.toNat ≤ r.writePos.toNat then r.writePos.toNat - r.readPos.toNat
  else p.rbCapacity - r.readPos.toNat

/-- The longest contiguous writable run from `write_pos`. -/
def writeRun (p : Params) (r : Ring) : Nat :=
  if r.writePos.toNat < r.readPos.toNat then r.readPos.toNat - r.writePos.toNat - 1
  else if r.readPos.toNat = 0 then p.rbCapacity - 1 - r.writePos.toNat
  else p.rbCapacity - r.writePos.toNat

/-- R87, R96: both positions become 0 when the ring is empty with no write window open, if `RB_RESET_ON_EMPTY`. -/
def resetOnEmpty (p : Params) (r : Ring) : Ring :=
  if p.rbResetOnEmpty = true ∧ r.readPos = r.writePos ∧ r.writeLock = false then
    { r with readPos := 0, writePos := 0 }
  else r

/-- The `k` bytes from `read_pos` on (R89 to R91). -/
def ringBytes (p : Params) (r : Ring) (k : Nat) : Option (List Byte) :=
  readCells p.rbCapacity r.storage r.readPos.toNat k

/-- Stores the bytes from `write_pos` on and then advances it (R49, R88, R94). -/
def ringPut (p : Params) (r : Ring) (bytes : List Byte) : Ring :=
  { r with
    storage := writeCells p.rbCapacity r.storage r.writePos.toNat bytes
    writePos := modAdd r.writePos bytes.length p.rbCapacity }

/-- Advances `read_pos` by `k` and runs reset-on-empty (R89, R92, R96). -/
def ringDrop (p : Params) (r : Ring) (k : Nat) : Ring :=
  resetOnEmpty p { r with readPos := modAdd r.readPos k p.rbCapacity }

/-! The count of the queue -/

/-- `eq_count` (R27). -/
def eqCount (p : Params) (q : EventQueue) : Nat := modSub q.wr q.rd p.eqDepth

end Sys2Proof.Machine
end

