-- ==== Sys2Proof/Machine/Flags.lean ====
section
/-! DEFINITION. The status words: read-only views of the flags (10_state.md R30 to R32). -/

namespace Sys2Proof.Machine

/-- `{0b000000, rb_fault, write_lock}` (R30, R98). -/
def rbStatusWord (r : Ring) : BitVec 8 :=
  0#6 ++ BitVec.ofBool r.rbFault ++ BitVec.ofBool r.writeLock

/-- `{eq_count[15:0], 0x000, pb_fault, eq_overflow, pb_armed, slot_valid}` (R31, R106). -/
def eqStatusWord (p : Params) (q : EventQueue) : BitVec 32 :=
  BitVec.ofNat 16 (eqCount p q) ++ 0x000#12 ++ BitVec.ofBool q.pbFault ++ BitVec.ofBool q.eqOverflow ++
    BitVec.ofBool q.pbArmed ++ BitVec.ofBool q.slotValid

/-- The OR of `RB[i].rb_fault` over every instance (R32). -/
def anyRbFault (s : State) : Bool := s.rings.any (fun r => r.rbFault)

/-- `{0b0000, pb_fault, eq_overflow, OR_i rb_fault, illegal_op}` (R32, R120). -/
def topStatusWord (s : State) : BitVec 8 :=
  0#4 ++ BitVec.ofBool s.queue.pbFault ++ BitVec.ofBool s.queue.eqOverflow ++ BitVec.ofBool (anyRbFault s) ++
    BitVec.ofBool s.illegalOp

end Sys2Proof.Machine
end

