-- ==== Sys2Proof/Machine/EventQueue.lean ====
section
/-! DEFINITION. The EventQueue's operations (42_event_queue.md). -/

namespace Sys2Proof.Machine

/-- Stores a word at `wr` and advances it (R103). -/
def queuePut (p : Params) (q : EventQueue) (w : EventWord) : EventQueue :=
  { q with
    entry := Memory.write q.entry q.wr.toNat w
    wr := modAdd q.wr 1 p.eqDepth }

/-- The push of R103, shared by EQ_PUSH, ASM_FEED's emission and ARB_SAMPLE: the state after it, and `ok`. -/
def push (w : EventWord) (s : State) : State × Bool :=
  if eventKind w = kindNone then (raise .illegalOp s, false)
  else if eqCount s.params s.queue = s.params.eqDepth - 1 then (raise .eqOverflow s, false)
  else (s.setQueue (queuePut s.params s.queue w), true)

/-- EQ_PUSH (R103). A refused push is a faulted operation (R128). -/
def execEqPush (word : EventWord) (s : State) : Result :=
  match push word s with
  | (t, ok) => .next (t.respond { ok := ok, faulted := !ok })

/-- EQ_POP (R104, R105). -/
def execEqPop (s : State) : Result :=
  let q := s.queue
  if q.slotValid then
    .next ((s.setQueue { q with slotValid := false, pbArmed := false }).respond { word := q.slot })
  else if eqCount s.params q = 0 then
    .next ((s.setQueue { q with pbArmed := false }).respond { word := 0x00000000 })
  else
    match Memory.read q.entry q.rd.toNat with
    | none => .fault .unwrittenEntry
    | some w =>
      .next ((s.setQueue { q with rd := modAdd q.rd 1 s.params.eqDepth, last := w, pbArmed := true }).respond { word := w })

/-- EQ_PUSH_BACK (R107). -/
def execEqPushBack (s : State) : Result :=
  let q := s.queue
  if q.pbArmed then
    .next ((s.setQueue { q with slot := q.last, slotValid := true, pbArmed := false }).respond {})
  else .next (reject .pushbackIllegal s)

/-- EQ_STATUS (R106). -/
def execEqStatus (s : State) : Result :=
  .next (s.respond { status32 := eqStatusWord s.params s.queue })

end Sys2Proof.Machine
end

