-- ==== Sys2Proof/Machine/Arbiter.lean ====
section
/-! DEFINITION. The ConnectionArbiter's operations (43_arbiter.md). -/

namespace Sys2Proof.Machine

/-- The event ARB_SAMPLE pushes when the pair differs from the stored one (R115, R63). -/
def connectionEvent (prev : Arbiter) (usb bus : Bool) : EventWord :=
  let o := classify usb bus
  eventWord kindConnectionChanged
    (connectionPayload usb bus (decide (o ≠ classify prev.prevUsb prev.prevBus)) o)

/-- ARB_SAMPLE (R115). The pair is stored only when the push is accepted (R118). -/
def execArbSample (usb bus : Bool) (s : State) : Result :=
  let o := classify usb bus
  if usb = s.arb.prevUsb ∧ bus = s.arb.prevBus then .next (s.respond { outcome := o.code })
  else
    match push (connectionEvent s.arb usb bus) s with
    | (t, true) => .next ((t.setArb { prevUsb := usb, prevBus := bus }).respond { outcome := o.code, pushed := true })
    | (t, false) => .next (t.respond { outcome := o.code })

/-- ARB_OUTCOME (R117). -/
def execArbOutcome (s : State) : Result :=
  .next (s.respond { outcome := (classify s.arb.prevUsb s.arb.prevBus).code })

end Sys2Proof.Machine
end

