-- ==== Sys2Proof/Machine/Assembler.lean ====
section
/-! DEFINITION. The MidiAssembler (40_assembler.md): the six cases of ASM_FEED as shared operations, and ASM_FEED itself. -/

namespace Sys2Proof.Machine

/-- Emission: the command is handed to the sink in the same step (R84). In the default wiring the sink pushes
`{0x01, raw}` (R62, R122), and `accepted` is the push's `ok`. A refused push does not fault the outer operation (R130). -/
def emit (r : Raw) (s : State) : State :=
  match push (eventWord kindMidi r) s with
  | (t, ok) => t.respond { emitted := true, raw := r, accepted := ok }

/-- The response of a byte that completes no command (R73). -/
def noEmission (s : State) : State := s.respond {}

/-- Case 1 (R75): inside a bracket every byte is discarded, and 0xF7 closes it. -/
def asmInBracket (b : Byte) (s : State) : State :=
  if b = 0xF7 then noEmission (s.setAsm { s.asm with awaitingSysexEnd := false }) else noEmission s

/-- Case 2 (R76): 0xF0 opens a bracket and cancels nothing. -/
def asmSysexStart (s : State) : State :=
  noEmission (s.setAsm { s.asm with awaitingSysexEnd := true })

/-- The fields at the start of a command with `len` data bytes to come (R77, R78, R80). -/
def startCommand (a : Assembler) (status : Byte) (len : BitVec 8) : Assembler :=
  { a with pendingStatus := status, accumulator := zext24 status, offset := 8, pendingLenRemaining := len }

/-- Case 3 (R77, R78): a channel-voice status starts a command. Length 0 is emitted at once; above 2 it is malformed and
dropped. -/
def asmStatus (b : Byte) (s : State) : State :=
  match lenOf s.params b with
  | 0 => emit (zext24 b) (s.setAsm (startCommand s.asm b 0))
  | 1 => noEmission (s.setAsm (startCommand s.asm b 1))
  | 2 => noEmission (s.setAsm (startCommand s.asm b 2))
  | _ => noEmission (s.setAsm (startCommand s.asm b 0))

/-- Case 4 (R82): a stray 0xF7 has no effect. -/
def asmStrayEnd (s : State) : State := noEmission s

/-- Case 5 (R81): a one-byte system message is emitted and no field is written. -/
def asmOneByte (b : Byte) (s : State) : State := emit (zext24 b) s

/-- The fields after a data byte is taken in (R79). -/
def takeData (a : Assembler) (b : Byte) : Assembler :=
  { a with
    accumulator := a.accumulator ||| (zext24 b <<< a.offset.toNat)
    offset := a.offset + 8
    pendingLenRemaining := a.pendingLenRemaining - 1 }

/-- R79: the byte is taken in, and the command is emitted when none remains. -/
def asmAccept (b : Byte) (s : State) : State :=
  let a := takeData s.asm b
  if a.pendingLenRemaining = 0 then emit a.accumulator (s.setAsm a) else noEmission (s.setAsm a)

/-- Whether running status may restart the last command (R80). -/
def canRestart (p : Params) (a : Assembler) : Bool :=
  p.runningStatus && decide (byteClass a.pendingStatus = .cvStatus) &&
    (decide (lenOf p a.pendingStatus = 1) || decide (lenOf p a.pendingStatus = 2))

/-- Case 6 (R79, R80): a data byte extends the command in flight, restarts the last one, or is dropped. -/
def asmData (b : Byte) (s : State) : State :=
  if s.asm.pendingLenRemaining = 0 then
    if canRestart s.params s.asm then
      asmAccept b (s.setAsm (startCommand s.asm s.asm.pendingStatus (BitVec.ofNat 8 (lenOf s.params s.asm.pendingStatus))))
    else noEmission s
  else asmAccept b s

/-- What a byte does at `ASM.in` (R73): case 1 while a bracket is open, else the case of the byte's class (R53, R54, R74). -/
def asmFeed (b : Byte) (s : State) : State :=
  if s.asm.awaitingSysexEnd then asmInBracket b s
  else
    match byteClass b with
    | .sysexStart => asmSysexStart s
    | .cvStatus => asmStatus b s
    | .sysexEnd => asmStrayEnd s
    | .sysOneByte => asmOneByte b s
    | .data => asmData b s

/-- ASM_FEED (R73). -/
def execAsmFeed (b : Byte) (s : State) : Result := .next (asmFeed b s)

end Sys2Proof.Machine
end

