-- ==== Sys2Proof/Machine/MidiBytes.lean ====
section
/-! DEFINITION. The MIDI byte decodes (30_encoding.md R53): what ASM.in does with a byte of each row of the opcode table,
by the case rules of 40_assembler.md. -/

namespace Sys2Proof.Machine

/-- R54: the byte's row decides only while no bracket is open; inside one, R75 does. -/
def midiByte (b : Byte) (outside : State → State) (s : State) : Result :=
  .next (if s.asm.awaitingSysexEnd then asmInBracket b s else outside s)

/-- MIDI_DATA (R79, R80). -/
def execMidiData (value : BitVec 7) (s : State) : Result := midiByte (0#1 ++ value) (asmData (0#1 ++ value)) s

/-- MIDI_CV_NOTE_OFF (R77, R78). -/
def execMidiCvNoteOff (channel : BitVec 4) (s : State) : Result := midiByte (0x8#4 ++ channel) (asmStatus (0x8#4 ++ channel)) s

/-- MIDI_CV_NOTE_ON (R77, R78). -/
def execMidiCvNoteOn (channel : BitVec 4) (s : State) : Result := midiByte (0x9#4 ++ channel) (asmStatus (0x9#4 ++ channel)) s

/-- MIDI_CV_POLY_PRESSURE (R77, R78). -/
def execMidiCvPolyPressure (channel : BitVec 4) (s : State) : Result := midiByte (0xA#4 ++ channel) (asmStatus (0xA#4 ++ channel)) s

/-- MIDI_CV_CONTROL_CHANGE (R77, R78). -/
def execMidiCvControlChange (channel : BitVec 4) (s : State) : Result := midiByte (0xB#4 ++ channel) (asmStatus (0xB#4 ++ channel)) s

/-- MIDI_CV_PROGRAM_CHANGE (R77, R78). -/
def execMidiCvProgramChange (channel : BitVec 4) (s : State) : Result := midiByte (0xC#4 ++ channel) (asmStatus (0xC#4 ++ channel)) s

/-- MIDI_CV_CHANNEL_PRESSURE (R77, R78). -/
def execMidiCvChannelPressure (channel : BitVec 4) (s : State) : Result := midiByte (0xD#4 ++ channel) (asmStatus (0xD#4 ++ channel)) s

/-- MIDI_CV_PITCH_BEND (R77, R78). -/
def execMidiCvPitchBend (channel : BitVec 4) (s : State) : Result := midiByte (0xE#4 ++ channel) (asmStatus (0xE#4 ++ channel)) s

/-- MIDI_SYSEX_START (R76). -/
def execMidiSysexStart (s : State) : Result := midiByte 0xF0 asmSysexStart s

/-- MIDI_SYSEX_END (R82; inside a bracket R75). -/
def execMidiSysexEnd (s : State) : Result := midiByte 0xF7 asmStrayEnd s

/-! The one-byte system messages (R81). -/

def execMidiSysF1 (s : State) : Result := midiByte 0xF1 (asmOneByte 0xF1) s
def execMidiSysF2 (s : State) : Result := midiByte 0xF2 (asmOneByte 0xF2) s
def execMidiSysF3 (s : State) : Result := midiByte 0xF3 (asmOneByte 0xF3) s
def execMidiSysF4 (s : State) : Result := midiByte 0xF4 (asmOneByte 0xF4) s
def execMidiSysF5 (s : State) : Result := midiByte 0xF5 (asmOneByte 0xF5) s
def execMidiSysF6 (s : State) : Result := midiByte 0xF6 (asmOneByte 0xF6) s
def execMidiSysF8 (s : State) : Result := midiByte 0xF8 (asmOneByte 0xF8) s
def execMidiSysF9 (s : State) : Result := midiByte 0xF9 (asmOneByte 0xF9) s
def execMidiSysFA (s : State) : Result := midiByte 0xFA (asmOneByte 0xFA) s
def execMidiSysFB (s : State) : Result := midiByte 0xFB (asmOneByte 0xFB) s
def execMidiSysFC (s : State) : Result := midiByte 0xFC (asmOneByte 0xFC) s
def execMidiSysFD (s : State) : Result := midiByte 0xFD (asmOneByte 0xFD) s
def execMidiSysFE (s : State) : Result := midiByte 0xFE (asmOneByte 0xFE) s
def execMidiSysFF (s : State) : Result := midiByte 0xFF (asmOneByte 0xFF) s

end Sys2Proof.Machine
end

