-- ==== Sys2Proof/Machine/RingBuffer.lean ====
section
/-! DEFINITION. The RingBuffer's operations (41_ring_buffer.md). -/

namespace Sys2Proof.Machine

/-! Producer port -/

/-- RB_WRITE (R88): stores the first `min(m, towrite)` bytes; faults while a write window is open. -/
def execRbWrite (inst : Nat) (data : List Byte) (s : State) : Result :=
  withInstance inst s fun r =>
    if r.writeLock then .next (reject (.rbWriteWhileLocked inst) s)
    else
      let k := min data.length (towrite s.params r)
      .next ((s.setRing inst (ringPut s.params r (data.take k))).respond { written := k })

/-- RB_GET_WRITE_WINDOW (R93). -/
def execRbGetWriteWindow (inst : Nat) (s : State) : Result :=
  withInstance inst s fun r =>
    .next ((s.setRing inst { r with writeLock := true }).respond { start := r.writePos.toNat, len := writeRun s.params r })

/-- RB_COMMIT_WRITE (R94): the checks in the order of R131. -/
def execRbCommitWrite (inst : Nat) (data : List Byte) (s : State) : Result :=
  withInstance inst s fun r =>
    if r.writeLock = false then .next (reject (.rbCommitNotLocked inst) s)
    else if writeRun s.params r < data.length then .next (reject (.rbCommitOversize inst) s)
    else
      .next ((s.setRing inst { ringPut s.params r data with writeLock := false }).respond { committed := data.length })

/-- RB_TOWRITE (R95). -/
def execRbTowrite (inst : Nat) (s : State) : Result :=
  withInstance inst s fun r => .next (s.respond { count := towrite s.params r })

/-! Consumer port -/

/-- RB_READ (R89). -/
def execRbRead (inst : Nat) (n : Pos) (s : State) : Result :=
  withInstance inst s fun r =>
    let k := min n.toNat (toread s.params r)
    match ringBytes s.params r k with
    | none => .fault (.unwrittenStorage inst)
    | some out => .next ((s.setRing inst (ringDrop s.params r k)).respond { data := out })

/-- RB_PEEK (R90): as RB_READ, but no state is written. -/
def execRbPeek (inst : Nat) (n : Pos) (s : State) : Result :=
  withInstance inst s fun r =>
    match ringBytes s.params r (min n.toNat (toread s.params r)) with
    | none => .fault (.unwrittenStorage inst)
    | some out => .next (s.respond { data := out })

/-- RB_GET_READ_WINDOW (R91). -/
def execRbGetReadWindow (inst : Nat) (s : State) : Result :=
  withInstance inst s fun r =>
    match ringBytes s.params r (readRun s.params r) with
    | none => .fault (.unwrittenStorage inst)
    | some out => .next (s.respond { start := r.readPos.toNat, len := readRun s.params r, data := out })

/-- RB_CONSUME (R92). -/
def execRbConsume (inst : Nat) (k : Pos) (s : State) : Result :=
  withInstance inst s fun r =>
    if toread s.params r < k.toNat then .next (reject (.rbConsumeOversize inst) s)
    else .next ((s.setRing inst (ringDrop s.params r k.toNat)).respond { consumed := k.toNat })

/-- RB_TOREAD (R97). -/
def execRbToread (inst : Nat) (s : State) : Result :=
  withInstance inst s fun r => .next (s.respond { count := toread s.params r })

/-- RB_STATUS (R98). -/
def execRbStatus (inst : Nat) (s : State) : Result :=
  withInstance inst s fun r => .next (s.respond { status8 := rbStatusWord r })

end Sys2Proof.Machine
end

