-- ==== Sys2Proof/Machine/Top.lean ====
section
/-! DEFINITION. The top-level operations (44_system.md). -/

namespace Sys2Proof.Machine

/-- TOP_RESET (R119): the reset of R141. -/
def execTopReset (s : State) : Result := .next (blockReset s)

/-- TOP_STATUS (R120). -/
def execTopStatus (s : State) : Result := .next (s.respond { status8 := topStatusWord s })

end Sys2Proof.Machine
end

