-- ==== Sys2Proof/Machine/Dispatch.lean ====
section
/-! DEFINITION. The meaning of every operation of the opcode table. -/

namespace Sys2Proof.Machine

def exec (i : Instr) (s : State) : Host.Outcome State Fault Refusal :=
  match i with
  | .topReset => Sys2Proof.Machine.execTopReset s
  | .topStatus => Sys2Proof.Machine.execTopStatus s
  | .asmFeed b => Sys2Proof.Machine.execAsmFeed b s
  | .rbWrite inst data => Sys2Proof.Machine.execRbWrite inst data s
  | .rbGetWriteWindow inst => Sys2Proof.Machine.execRbGetWriteWindow inst s
  | .rbCommitWrite inst data => Sys2Proof.Machine.execRbCommitWrite inst data s
  | .rbTowrite inst => Sys2Proof.Machine.execRbTowrite inst s
  | .rbRead inst n => Sys2Proof.Machine.execRbRead inst n s
  | .rbPeek inst n => Sys2Proof.Machine.execRbPeek inst n s
  | .rbGetReadWindow inst => Sys2Proof.Machine.execRbGetReadWindow inst s
  | .rbConsume inst k => Sys2Proof.Machine.execRbConsume inst k s
  | .rbToread inst => Sys2Proof.Machine.execRbToread inst s
  | .rbStatus inst => Sys2Proof.Machine.execRbStatus inst s
  | .eqPush word => Sys2Proof.Machine.execEqPush word s
  | .eqPop => Sys2Proof.Machine.execEqPop s
  | .eqPushBack => Sys2Proof.Machine.execEqPushBack s
  | .eqStatus => Sys2Proof.Machine.execEqStatus s
  | .arbSample usb bus => Sys2Proof.Machine.execArbSample usb bus s
  | .arbOutcome => Sys2Proof.Machine.execArbOutcome s
  | .midiData value => Sys2Proof.Machine.execMidiData value s
  | .midiCvNoteOff channel => Sys2Proof.Machine.execMidiCvNoteOff channel s
  | .midiCvNoteOn channel => Sys2Proof.Machine.execMidiCvNoteOn channel s
  | .midiCvPolyPressure channel => Sys2Proof.Machine.execMidiCvPolyPressure channel s
  | .midiCvControlChange channel => Sys2Proof.Machine.execMidiCvControlChange channel s
  | .midiCvProgramChange channel => Sys2Proof.Machine.execMidiCvProgramChange channel s
  | .midiCvChannelPressure channel => Sys2Proof.Machine.execMidiCvChannelPressure channel s
  | .midiCvPitchBend channel => Sys2Proof.Machine.execMidiCvPitchBend channel s
  | .midiSysexStart => Sys2Proof.Machine.execMidiSysexStart s
  | .midiSysexEnd => Sys2Proof.Machine.execMidiSysexEnd s
  | .midiSysF1 => Sys2Proof.Machine.execMidiSysF1 s
  | .midiSysF2 => Sys2Proof.Machine.execMidiSysF2 s
  | .midiSysF3 => Sys2Proof.Machine.execMidiSysF3 s
  | .midiSysF4 => Sys2Proof.Machine.execMidiSysF4 s
  | .midiSysF5 => Sys2Proof.Machine.execMidiSysF5 s
  | .midiSysF6 => Sys2Proof.Machine.execMidiSysF6 s
  | .midiSysF8 => Sys2Proof.Machine.execMidiSysF8 s
  | .midiSysF9 => Sys2Proof.Machine.execMidiSysF9 s
  | .midiSysFA => Sys2Proof.Machine.execMidiSysFA s
  | .midiSysFB => Sys2Proof.Machine.execMidiSysFB s
  | .midiSysFC => Sys2Proof.Machine.execMidiSysFC s
  | .midiSysFD => Sys2Proof.Machine.execMidiSysFD s
  | .midiSysFE => Sys2Proof.Machine.execMidiSysFE s
  | .midiSysFF => Sys2Proof.Machine.execMidiSysFF s

end Sys2Proof.Machine
end

