-- ==== Sys2Proof/Machine/Issue.lean ====
section
/-! DEFINITION. Agents and ports (00_scope.md R9 to R11): whose operation is next, whether it may be issued, and the
pseudo-operations of R71. -/

namespace Sys2Proof.Machine

/-- The agent that owns a port (R9). None for `EQ.push`, for the port of a ring that does not exist, and for a ring's port
past the end of the binding's list: R9 and R143 presume every port of an existing ring bound and say nothing of an unbound
one (DESIGN CHOICE, log 19). -/
def Binding.owner (b : Binding) : Port → Option Agent
  | .ctl => some b.ctl
  | .asmIn => some b.asmIn
  | .eqPop => some b.eqPop
  | .arbIn => some b.arbIn
  | .rbProd i => b.prod[i]?
  | .rbCons i => b.cons[i]?
  | .eqPush => none

/-- Whether an agent may issue on a port: no other agent owns it (R11, R102). On a port with no owner every agent may: so R9
has it for `EQ.push`, and for an existing ring's port left unbound it is the model's choice (DESIGN CHOICE, log 19). -/
def mayIssue (b : Binding) (a : Agent) (port : Port) : Bool :=
  match b.owner port with
  | none => true
  | some o => decide (o = a)

/-- One transaction of an agent: refused before the first reset (R143) and on a port another agent owns (R102); ILLEGAL_OP
where it does not decode (R68, R121); else the meaning of the decoded operation. -/
def perform (a : Agent) (tx : Transaction) (s : State) : Result :=
  if s.resetDone = false then .refused .beforeFirstReset
  else if mayIssue s.binding a tx.port = false then .refused (.portOwnedByAnother tx.port)
  else
    match decode tx with
    | .error _ => .next (reject .illegalOp s)
    | .ok i => exec i s

/-- The first item of an agent's issue order, and what is left (R10). -/
def takeFirst (a : Agent) : List Pending → Option (Issue × List Pending)
  | [] => none
  | p :: ps =>
    if p.agent = a then some (p.issue, ps)
    else
      match takeFirst a ps with
      | none => none
      | some (i, rest) => some (i, p :: rest)

/-- The bytes an agent has still to feed stand before everything else it has to do (R71). -/
def queueBytes (a : Agent) (bytes : List Byte) (ps : List Pending) : List Pending :=
  match bytes with
  | [] => ps
  | _ :: _ => { agent := a, issue := .feedStream bytes } :: ps

/-- The RB_READ that DRAIN begins with (R71). -/
def drainRequest (inst : Nat) (n : Pos) : Request :=
  { port := .rbCons inst, opcode := 0x28, operands := { inst := inst, count := n } }

/-- Applies a function to the next state. -/
def onNext (f : State → State) : Result → Result
  | .next t => .next (f t)
  | .fault r => .fault r
  | .refused r => .refused r

/-- One operation of an agent's item, already taken off its order. A pseudo-operation's operations are separate steps
(R71): FEED_STREAM feeds one byte and keeps the rest; DRAIN reads, and then feeds the bytes the read returned. -/
def runIssue (a : Agent) (issue : Issue) (s : State) : Result :=
  match issue with
  | .op r => perform a (.op r) s
  | .feedStream [] => .next s
  | .feedStream (b :: bs) => perform a (.midiByte b) (s.setPending (queueBytes a bs s.pending))
  | .drain inst n =>
    onNext (fun t => t.setPending (queueBytes a t.response.data t.pending)) (perform a (.op (drainRequest inst n)) s)

/-- The step of a chosen agent; an agent with nothing to do is passed over (log 4). -/
def runAgent (a : Agent) (s : State) : Result :=
  match takeFirst a s.pending with
  | none => .next s
  | some (issue, rest) => runIssue a issue (s.setPending rest)

/-- One turn of the interleaving (R10, R141). -/
def runTurn (t : Turn) (s : State) : Result :=
  match t with
  | .resetInput => .next (blockReset s)
  | .agent a => runAgent a s

/-- A transaction as an item of an agent's issue order. -/
def issueOf : Transaction → Issue
  | .op r => .op r
  | .midiByte b => .feedStream [b]

/-- The agent that may issue a transaction: the port's owner, and ISR on `EQ.push` (R70). -/
def issuerOf (b : Binding) (tx : Transaction) : Agent := (b.owner tx.port).getD .isr

/-- A transaction put first in its agent's order, that agent being the next to move. -/
def State.issueNext (s : State) (tx : Transaction) : State :=
  let a := issuerOf s.binding tx
  (s.setPending ({ agent := a, issue := issueOf tx } :: s.pending)).setSchedule (.agent a :: s.schedule)

end Sys2Proof.Machine
end

