-- ==== Sys2Proof/Machine/Step.lean ====
section
/-! DEFINITION. One step of a run (00_scope.md R10): the next turn of the interleaving. -/

namespace Sys2Proof.Machine

/-- The next turn is taken; with none left no agent moves, and the block does nothing by itself (R142). -/
def step (s : State) : Host.Outcome State Fault Refusal :=
  match s.schedule with
  | [] => .next s
  | t :: rest => runTurn t (s.setSchedule rest)

/-- The state in which the next step issues the operation of an opcode-table word, by the agent that owns its port
(log 5, log 17). -/
def State.withFetchWord (s : State) (nbits w : Nat) : State :=
  match tableTransaction nbits w with
  | some tx => s.issueNext tx
  | none => s

end Sys2Proof.Machine
end

