-- ==== Sys2Proof/Safety.lean ====
section
/-! DEFINITION. What a good state is, in the terms the statements use: fault-free (R32, R140), the invariants of the four
units (R17, R22, R25, R27, R40, R85, R100), and the queues that a ring and the EventQueue stand for (R48, R111). -/

namespace Sys2Proof.Machine

/-- "A state is fault-free when TOP_STATUS = 0x00" (R32). -/
def faultFree (s : State) : Prop := topStatusWord s = 0x00

/-! Rings -/

/-- The positions are in range, the storage is in canonical form and inside the array, and every byte of the readable run
has been written since reset (R20, R22, R37, R40). -/
structure Ring.Inv (p : Params) (r : Ring) : Prop where
  read_lt : r.readPos.toNat < p.rbCapacity
  write_lt : r.writePos.toNat < p.rbCapacity
  storage_wf : Memory.wf r.storage = true
  storage_lt : ∀ c ∈ r.storage, c.1 < p.rbCapacity
  readable : ∀ j, j < toread p r → (Memory.read r.storage ((r.readPos.toNat + j) % p.rbCapacity)).isSome = true

/-- The parameters are legal, there are NUM_RB rings, and each is good. -/
structure State.RingsInv (s : State) : Prop where
  params : s.params.WF
  count : s.rings.length = s.params.numRb
  each : ∀ r ∈ s.rings, r.Inv s.params

/-- The bytes a ring holds, oldest first. -/
def ringContents (p : Params) (r : Ring) : List Byte := (ringBytes p r (toread p r)).getD []

/-! The EventQueue -/

/-- The positions are in range, the entry file is in canonical form and inside its array, every entry of the run
`[rd, rd + eq_count)` has been written since reset (R40), no stored word is a None event (R110), and the lookahead slot and
`pb_armed` are never both on (R104, R107). -/
structure EventQueue.Inv (p : Params) (q : EventQueue) : Prop where
  rd_lt : q.rd.toNat < p.eqDepth
  wr_lt : q.wr.toNat < p.eqDepth
  entry_wf : Memory.wf q.entry = true
  entry_lt : ∀ c ∈ q.entry, c.1 < p.eqDepth
  readable : ∀ j, j < eqCount p q → (Memory.read q.entry ((q.rd.toNat + j) % p.eqDepth)).isSome = true
  entry_kind : ∀ c ∈ q.entry, eventKind c.2 ≠ kindNone
  slot_kind : q.slotValid = true → q.slot = q.last ∧ eventKind q.slot ≠ kindNone ∧ q.pbArmed = false
  last_kind : q.pbArmed = true → eventKind q.last ≠ kindNone

/-- The parameters are legal and the queue is good. -/
structure State.QueueInv (s : State) : Prop where
  params : s.params.WF
  queue : s.queue.Inv s.params

/-- The events of the entry file, oldest first. -/
def entryContents (p : Params) (q : EventQueue) : List EventWord :=
  (readCells p.eqDepth q.entry q.rd.toNat (eqCount p q)).getD []

/-- The events that pops will deliver, in order: the pushed-back one first (R104, R111). -/
def queueContents (p : Params) (q : EventQueue) : List EventWord :=
  (if q.slotValid then [q.slot] else []) ++ entryContents p q

/-! The assembler -/

/-- R16 to R19: `pending_status` is 0x00 or a channel-voice status; `offset` is 8, 16 or 24; 0, 1 or 2 data bytes remain,
and while some do, the accumulator holds the status and the data bytes taken in so far. -/
structure Assembler.Inv (a : Assembler) : Prop where
  status : a.pendingStatus = 0x00 ∨ byteClass a.pendingStatus = .cvStatus
  offset : a.offset = 8 ∨ a.offset = 16 ∨ a.offset = 24
  remaining : a.pendingLenRemaining = 0 ∨ a.pendingLenRemaining = 1 ∨ a.pendingLenRemaining = 2
  in_flight : a.pendingLenRemaining ≠ 0 →
    byteClass a.pendingStatus = .cvStatus ∧ rawStatus a.accumulator = a.pendingStatus ∧
    rawData1 a.accumulator = 0 ∧ byteClass (rawData0 a.accumulator) = .data
  no_data_yet : a.pendingLenRemaining ≠ 0 → a.offset = 8 → rawData0 a.accumulator = 0
  one_data : a.pendingLenRemaining ≠ 0 → a.offset ≠ 8 → a.offset = 16 ∧ a.pendingLenRemaining = 1

/-- While a command is in flight, the data bytes taken in (`offset` counts them, R18) and those still to come are the
`LEN_TABLE[pending_status]` of the command (R17, R58). -/
def Assembler.FitsTable (p : Params) (a : Assembler) : Prop :=
  a.pendingLenRemaining ≠ 0 →
    a.offset.toNat + 8 * a.pendingLenRemaining.toNat = 8 + 8 * lenOf p a.pendingStatus

/-! The fault set -/

/-- The fault set is kept in code order with no repeats, and a sticky flag that is set has its fault recorded (R128, R140). -/
structure State.FaultsInv (s : State) : Prop where
  sorted : s.faults.Pairwise (fun c d => c.number < d.number)
  illegal : s.illegalOp = true → FaultCode.illegalOp ∈ s.faults
  pushback : s.queue.pbFault = true → FaultCode.pushbackIllegal ∈ s.faults
  overflow : s.queue.eqOverflow = true → FaultCode.eqOverflow ∈ s.faults
  rings : ∀ r ∈ s.rings, r.rbFault = true →
    FaultCode.rbWriteWhileLocked ∈ s.faults ∨ FaultCode.rbCommitNotLocked ∈ s.faults ∨
    FaultCode.rbCommitOversize ∈ s.faults ∨ FaultCode.rbConsumeOversize ∈ s.faults

/-- The whole invariant. -/
structure State.Inv (s : State) : Prop where
  rings : s.RingsInv
  queue : s.QueueInv
  asm : s.asm.Inv
  faults : s.FaultsInv

end Sys2Proof.Machine
end

