-- ==== Sys2Proof/WellFormed.lean ====
section
/-! DEFINITION. Which operations are legal under given parameters (30_encoding.md R68, R72). -/

namespace Sys2Proof

/-- The RingBuffer instance an operation names. -/
def Instr.ringOf? : Instr → Option Nat
  | .rbWrite i _ | .rbGetWriteWindow i | .rbCommitWrite i _ | .rbTowrite i => some i
  | .rbRead i _ | .rbPeek i _ | .rbGetReadWindow i | .rbConsume i _ | .rbToread i | .rbStatus i => some i
  | _ => none

/-- The event word an operation pushes as it stands. -/
def Instr.pushedWord? : Instr → Option EventWord
  | .eqPush w => some w
  | _ => none

/-- R68: an instance is below NUM_RB, and a pushed word is not of kind None (R110). Every other operand value is
legal (R72): the types hold the widths. -/
def Instr.wellFormed (p : Params) (i : Instr) : Bool :=
  (match i.ringOf? with | some n => decide (n < p.numRb) | none => true) &&
  (match i.pushedWord? with | some w => decide (w.extractLsb' 24 8 ≠ 0) | none => true)

end Sys2Proof
end

