-- ==== Sys2Proof/Certificates/Slice0/Obligations.lean ====
section
/-! DEFINITION. The statements about the model, and the relations they share. A response is stated whole: the fields R67 lists
for the operation, `faulted`, and 0 in the fields the operation does not have (log 3). -/

namespace Sys2Proof.Machine

/-! Relations between the state before an operation and the state after it -/

/-- The fault set gains one fault and no other (R140). -/
def FaultRecorded (c : FaultCode) (s t : State) : Prop := ∀ d, d ∈ t.faults ↔ d = c ∨ d ∈ s.faults

/-- Only ring `i` and the response may differ. -/
def RingFrame (i : Nat) (s t : State) : Prop :=
  t = { s with rings := t.rings, response := t.response } ∧ t.rings.length = s.rings.length ∧
  ∀ j, j ≠ i → t.ring j = s.ring j

/-- A fault of ring `i`: its sticky flag, the fault set and the faulted response, and nothing else. -/
def RingFaulted (c : FaultCode) (i : Nat) (s t : State) : Prop :=
  t = { s with rings := t.rings, faults := t.faults, response := Response.fault } ∧
  t.rings.length = s.rings.length ∧ (∀ j, j ≠ i → t.ring j = s.ring j) ∧
  t.ring i = { s.ring i with rbFault := true } ∧ FaultRecorded c s t

/-- The operations that R128 lists as faults of ring `j`, with their conditions. -/
def RingMisuse (i : Instr) (j : Nat) (s : State) : Prop :=
  (∃ data, i = .rbWrite j data ∧ (s.ring j).writeLock = true) ∨
  (∃ data, i = .rbCommitWrite j data ∧ ((s.ring j).writeLock = false ∨ writeRun s.params (s.ring j) < data.length)) ∨
  ∃ k, i = .rbConsume j k ∧ toread s.params (s.ring j) < k.toNat

/-- ILLEGAL_OP (R121): the flag, the fault set and the faulted response, and nothing else. -/
def IllegalOp (s t : State) : Prop :=
  t = { s with illegalOp := true, faults := t.faults, response := Response.fault } ∧ FaultRecorded .illegalOp s t

/-- The queue after a word is stored: slot `wr` holds it, every other slot is as before, `wr` is one further (R103). -/
def Stores (p : Params) (q q' : EventQueue) (w : EventWord) : Prop :=
  q' = { q with wr := q'.wr, entry := q'.entry } ∧ q'.wr.toNat = (q.wr.toNat + 1) % p.eqDepth ∧
  ∀ a, Memory.read q'.entry a = if a = q.wr.toNat then some w else Memory.read q.entry a

/-- A push: accepted and stored, or refused because the queue is full, which sets `eq_overflow` (R103). -/
def Pushes (s t : State) (w : EventWord) (ok : Bool) : Prop :=
  (ok = true ∧ eqCount s.params s.queue ≠ s.params.eqDepth - 1 ∧ Stores s.params s.queue t.queue w ∧ t.faults = s.faults) ∨
  (ok = false ∧ eqCount s.params s.queue = s.params.eqDepth - 1 ∧ t.queue = { s.queue with eqOverflow := true } ∧
    FaultRecorded .eqOverflow s t)

/-- A byte that emits `raw` and leaves the assembler as `a`: the event `{0x01, raw}` is pushed, and nothing else changes
(R73, R84). -/
def Emits (s t : State) (a : Assembler) (raw : Raw) : Prop :=
  ∃ ok, t = { s with asm := a, queue := t.queue, faults := t.faults,
                     response := { emitted := true, raw := raw, accepted := ok } } ∧
    Pushes s t (0x01#8 ++ raw) ok

/-- A byte that emits nothing and leaves the assembler as `a`. -/
def Silent (s t : State) (a : Assembler) : Prop := t = { s with asm := a, response := {} }

/-- Every field of the block has its reset value (R141); no location has a value (R40). -/
def HardwareReset (t : State) : Prop :=
  t.asm.awaitingSysexEnd = false ∧ t.asm.pendingStatus = 0x00 ∧ t.asm.pendingLenRemaining = 0 ∧ t.asm.offset = 8 ∧
  t.asm.accumulator = 0x000000 ∧
  t.rings.length = t.params.numRb ∧
  (∀ i, (t.ring i).readPos = 0 ∧ (t.ring i).writePos = 0 ∧ (t.ring i).writeLock = false ∧ (t.ring i).rbFault = false ∧
    ∀ a, Memory.read (t.ring i).storage a = none) ∧
  t.queue.rd = 0 ∧ t.queue.wr = 0 ∧ (∀ a, Memory.read t.queue.entry a = none) ∧ t.queue.slot = 0x00000000 ∧
  t.queue.slotValid = false ∧ t.queue.last = 0x00000000 ∧ t.queue.pbArmed = false ∧ t.queue.eqOverflow = false ∧
  t.queue.pbFault = false ∧ t.arb.prevUsb = false ∧ t.arb.prevBus = false ∧ t.illegalOp = false

/-- The operation's encoding (R66, R67): its port, its opcode and its operand fields. -/
def Encoded (i : Instr) (port : Port) (opcode : Byte) (o : Operands) : Prop :=
  encode i = .op { port := port, opcode := opcode, operands := o }

/-- A MIDI row of the opcode table, or ASM_FEED: the operation brings the byte `b` to `ASM.in` (R53, R73). -/
def Feeds (i : Instr) (b : Byte) : Prop := i = .asmFeed b ∨ encode i = .midiByte b

/-- The state in which an agent's next item has been taken off its order and the turn is used up. -/
def State.afterTurn (s : State) (turns : List Turn) (rest : List Pending) : State :=
  { s with schedule := turns, pending := rest }

end Sys2Proof.Machine

open Sys2Proof Sys2Proof.Machine

/-! Encoding -/

/-- Every operation decodes to itself from its encoding, at every operand value (R53, R67). -/
def Obligations.DecodeOfEncode : Prop := ∀ i : Instr, decode (encode i) = .ok i

/-- Every byte is the encoding of its MIDI row, and the row is that of the byte's class (R53, R55). -/
def Obligations.EveryByteHasItsMidiRow : Prop :=
  ∀ b : Byte, encode (decodeMidiByte b) = .midiByte b ∧
    (byteClass b = .data ↔ ∃ v, decodeMidiByte b = .midiData v) ∧
    (byteClass b = .sysexStart ↔ decodeMidiByte b = .midiSysexStart) ∧
    (byteClass b = .sysexEnd ↔ decodeMidiByte b = .midiSysexEnd) ∧
    (byteClass b = .data ↔ b &&& 0x80 = 0) ∧ (byteClass b = .sysexStart ↔ b = 0xF0) ∧
    (byteClass b = .sysexEnd ↔ b = 0xF7) ∧ (byteClass b = .cvStatus ↔ 0x80 ≤ b.toNat ∧ b.toNat ≤ 0xEF) ∧
    (byteClass b = .sysOneByte ↔ (0xF1 ≤ b.toNat ∧ b.toNat ≤ 0xF6) ∨ 0xF8 ≤ b.toNat)

/-- Decoding a request is exact (R67, R68): it succeeds only for the opcode and the port of the operation it gives, and
fails for every other opcode and every other port. -/
def Obligations.RequestDecodingIsExact : Prop :=
  ∀ r : Request,
    (∀ i, decode (.op r) = .ok i → i.port = r.port ∧
      ∃ o, encode i = .op { port := r.port, opcode := r.opcode, operands := o }) ∧
    ((∃ e, decode (.op r) = .error e) ↔
      ¬ ∃ i, decodeOpcode r.opcode r.operands = some i ∧ i.port = r.port) ∧
    (decodeOpcode r.opcode r.operands = none ↔
      r.opcode.toNat ∉ [0x01, 0x02, 0x10, 0x20, 0x21, 0x22, 0x23, 0x28, 0x29, 0x2A, 0x2B, 0x2C, 0x2D, 0x30, 0x38, 0x39,
        0x3A, 0x40, 0x41])

/-- A few words of the spec's listings (95_test_vectors.md P1 to P5) and bytes of R53 decode to the operations they stand
for. -/
def Obligations.ListedWordsDecode : Prop :=
  decode (.op { port := .rbProd 0, opcode := 0b00100000, operands := { inst := 0, data := [0x41, 0x42, 0x43, 0x44] } }) =
    .ok (.rbWrite 0 [0x41, 0x42, 0x43, 0x44]) ∧
  decode (.op { port := .rbCons 0, opcode := 0b00101000, operands := { inst := 0, count := 0x0002 } }) = .ok (.rbRead 0 2) ∧
  decode (.op { port := .asmIn, opcode := 0b00010000, operands := { b := 0x90 } }) = .ok (.asmFeed 0x90) ∧
  decode (.op { port := .eqPop, opcode := 0b00111001 }) = .ok .eqPushBack ∧
  decode (.op { port := .arbIn, opcode := 0b01000000, operands := { usb := true } }) = .ok (.arbSample true false) ∧
  decode (.op { port := .ctl, opcode := 0b00000001 }) = .ok .topReset ∧
  decode (.midiByte 0b10010011) = .ok (.midiCvNoteOn 3) ∧ decode (.midiByte 0b11111000) = .ok .midiSysF8

/-! The step -/

/-- A chosen agent's request that decodes runs as that operation, with the turn and the request used up (R4, R10). -/
def Obligations.StepRunsTheDecodedRequest : Prop :=
  ∀ (s : State) (a : Agent) (turns : List Turn) (r : Request) (rest : List Pending) (i : Instr),
    s.schedule = .agent a :: turns → takeFirst a s.pending = some (.op r, rest) → s.resetDone = true →
    mayIssue s.binding a r.port = true → decode (.op r) = .ok i →
    step s = exec i (s.afterTurn turns rest)

/-- A FEED_STREAM step runs the MIDI row of its first byte, with the other bytes kept for the agent's next steps (R71). -/
def Obligations.StepFeedsTheNextStreamByte : Prop :=
  ∀ (s : State) (a : Agent) (turns : List Turn) (b : Byte) (bs : List Byte) (rest : List Pending),
    s.schedule = .agent a :: turns → takeFirst a s.pending = some (.feedStream (b :: bs), rest) → s.resetDone = true →
    mayIssue s.binding a .asmIn = true →
    step s = exec (decodeMidiByte b)
      (s.afterTurn turns (if bs = [] then rest else { agent := a, issue := .feedStream bs } :: rest))

/-- DRAIN is RB_READ, and then the bytes it returned stand first in the agent's order, to be fed (R71, R123). -/
def Obligations.DrainReadsThenFeedsTheBytes : Prop :=
  ∀ (s t : State) (a : Agent) (turns : List Turn) (inst : Nat) (n : Pos) (rest : List Pending),
    s.schedule = .agent a :: turns → takeFirst a s.pending = some (.drain inst n, rest) → s.resetDone = true →
    mayIssue s.binding a (.rbCons inst) = true → exec (.rbRead inst n) (s.afterTurn turns rest) = .next t →
    step s = .next { t with pending := if t.response.data = [] then rest
                                       else { agent := a, issue := .feedStream t.response.data } :: rest }

/-- An operation before the first reset, and one on a port another agent owns, are no step of a run (R11, R102, R143). -/
def Obligations.ForeignAndEarlyOperationsAreRefused : Prop :=
  ∀ (s : State) (a : Agent) (turns : List Turn) (r : Request) (rest : List Pending),
    s.schedule = .agent a :: turns → takeFirst a s.pending = some (.op r, rest) →
    (s.resetDone = false → step s = .refused .beforeFirstReset) ∧
    (s.resetDone = true → ∀ o, s.binding.owner r.port = some o → o ≠ a → step s = .refused (.portOwnedByAnother r.port))

/-- A request that does not decode is ILLEGAL_OP: one flag and nothing else of the block changes (R68, R121, R131). -/
def Obligations.UndecodedRequestIsIllegalOp : Prop :=
  ∀ (s : State) (a : Agent) (turns : List Turn) (r : Request) (rest : List Pending) (e : Reject),
    s.schedule = .agent a :: turns → takeFirst a s.pending = some (.op r, rest) → s.resetDone = true →
    mayIssue s.binding a r.port = true → decode (.op r) = .error e →
    ∃ t, step s = .next t ∧ IllegalOp (s.afterTurn turns rest) t

/-- One agent's operations take effect in its issue order: the item taken is its first, and the order of what is left is
kept for every agent (R10). -/
def Obligations.IssueOrderIsKept : Prop :=
  ∀ (a : Agent) (ps rest : List Pending) (x : Issue), takeFirst a ps = some (x, rest) →
    ps.filter (fun p => decide (p.agent = a)) = { agent := a, issue := x } :: rest.filter (fun p => decide (p.agent = a)) ∧
    ∀ b, b ≠ a → ps.filter (fun p => decide (p.agent = b)) = rest.filter (fun p => decide (p.agent = b))

/-- With no agent chosen, or a chosen agent with nothing to do, the block does nothing by itself (R142). -/
def Obligations.IdleBlockKeepsItsState : Prop :=
  ∀ s : State, (s.schedule = [] → step s = .next s) ∧
    ∀ a turns, s.schedule = .agent a :: turns → (∀ p ∈ s.pending, p.agent ≠ a) → step s = .next { s with schedule := turns }

/-! Top level -/

/-- The values the spec gives for reset (R141), in the state after reset. -/
def Obligations.ResetStateHasTheSpecValues : Prop := HardwareReset State.reset ∧ faultFree State.reset

/-- TOP_RESET and the reset input set every field of the block to its reset value in one step, after which every ring and
the queue are empty and TOP_STATUS is 0x00 (R119, R141). -/
def Obligations.ResetRestoresEveryField : Prop :=
  ∀ s : State, s.params.WF →
    Encoded .topReset .ctl 0x01 {} ∧
    ∃ t, exec .topReset s = .next t ∧
      (∀ turns, s.schedule = .resetInput :: turns → step s = .next { t with schedule := turns }) ∧
      HardwareReset t ∧ t.params = s.params ∧ topStatusWord t = 0x00 ∧
      (∀ i, toread t.params (t.ring i) = 0 ∧ towrite t.params (t.ring i) = t.params.rbCapacity - 1) ∧
      eqCount t.params t.queue = 0

/-- The model's choice (log 10): the fault set, the binding and what agents have yet to do are no state of the block, and a
reset keeps them; its response is empty. -/
def Obligations.ResetKeepsWhatIsNotTheBlocks : Prop :=
  ∀ s : State, ∃ t, exec .topReset s = .next t ∧ t.faults = s.faults ∧ t.binding = s.binding ∧ t.pending = s.pending ∧
    t.schedule = s.schedule ∧ t.resetDone = true ∧ t.response = {}

/-- TOP_STATUS reads the four flags into its word and changes nothing (R32, R120). -/
def Obligations.TopStatusReadsTheFlags : Prop :=
  ∀ s : State, Encoded .topStatus .ctl 0x02 {} ∧
    ∃ w : BitVec 8, exec .topStatus s = .next { s with response := { status8 := w } } ∧
    w.getLsbD 0 = s.illegalOp ∧ (w.getLsbD 1 = true ↔ ∃ r ∈ s.rings, r.rbFault = true) ∧
    w.getLsbD 2 = s.queue.eqOverflow ∧ w.getLsbD 3 = s.queue.pbFault ∧ w.extractLsb' 4 4 = 0

/-- An instance at or above NUM_RB and a pushed word of kind None are ILLEGAL_OP (R68, R110, R121). -/
def Obligations.IllFormedOperationIsIllegalOp : Prop :=
  ∀ (i : Instr) (s : State), i.wellFormed s.params = false → ∃ t, exec i s = .next t ∧ IllegalOp s t

/-- Every operation, legal or not, completes in its step from a good state (R11, R152). -/
def Obligations.EveryOperationCompletes : Prop :=
  ∀ (i : Instr) (s : State), s.RingsInv → s.QueueInv → ∃ t, exec i s = .next t

/-! The assembler -/

/-- ASM_FEED of a byte is what the byte's MIDI row does (R53, R54, R73, R74). -/
def Obligations.AsmFeedIsTheMidiRowOfItsByte : Prop :=
  ∀ (b : Byte) (s : State), exec (.asmFeed b) s = exec (decodeMidiByte b) s

/-- Inside an open bracket every byte is discarded, and 0xF7 closes the bracket (R75). -/
def Obligations.BracketDiscardsEveryByte : Prop :=
  ∀ (i : Instr) (b : Byte) (s : State), Feeds i b → s.asm.awaitingSysexEnd = true →
    ∃ t, exec i s = .next t ∧ Silent s t { s.asm with awaitingSysexEnd := decide (b ≠ 0xF7) }

/-- Outside a bracket 0xF0 opens one and keeps the command in flight (R76). -/
def Obligations.SysexStartOpensABracket : Prop :=
  ∀ (i : Instr) (s : State), Feeds i 0xF0 → s.asm.awaitingSysexEnd = false →
    ∃ t, exec i s = .next t ∧ Silent s t { s.asm with awaitingSysexEnd := true }

/-- Outside a bracket 0xF7 has no effect (R82). -/
def Obligations.StraySysexEndHasNoEffect : Prop :=
  ∀ (i : Instr) (s : State), Feeds i 0xF7 → s.asm.awaitingSysexEnd = false → ∃ t, exec i s = .next t ∧ Silent s t s.asm

/-- A channel-voice status of length 1 or 2 starts a command (R77). -/
def Obligations.StatusByteStartsACommand : Prop :=
  ∀ (i : Instr) (b : Byte) (s : State), Feeds i b → s.asm.awaitingSysexEnd = false → 0x80 ≤ b.toNat → b.toNat ≤ 0xEF →
    (lenOf s.params b = 1 ∨ lenOf s.params b = 2) →
    ∃ t, exec i s = .next t ∧
      Silent s t { awaitingSysexEnd := false, pendingStatus := b, pendingLenRemaining := BitVec.ofNat 8 (lenOf s.params b),
                   offset := 8, accumulator := b.setWidth 24 }

/-- A channel-voice status of length 0 is emitted at once, and one of length above 2 is dropped (R78). -/
def Obligations.ZeroAndOverlongStatus : Prop :=
  ∀ (i : Instr) (b : Byte) (s : State), s.params.WF → Feeds i b → s.asm.awaitingSysexEnd = false → 0x80 ≤ b.toNat →
    b.toNat ≤ 0xEF →
    (lenOf s.params b = 0 → ∃ t, exec i s = .next t ∧
      Emits s t { awaitingSysexEnd := false, pendingStatus := b, pendingLenRemaining := 0, offset := 8,
                  accumulator := b.setWidth 24 } (b.setWidth 24)) ∧
    (2 < lenOf s.params b → ∃ t, exec i s = .next t ∧
      Silent s t { awaitingSysexEnd := false, pendingStatus := b, pendingLenRemaining := 0, offset := 8,
                   accumulator := b.setWidth 24 })

/-- A data byte with a command in flight is OR-ed in at the offset, and completes the command when it was the last (R79). -/
def Obligations.DataByteExtendsTheCommand : Prop :=
  ∀ (i : Instr) (b : Byte) (s : State), s.params.WF → Feeds i b → s.asm.awaitingSysexEnd = false → b.toNat ≤ 0x7F →
    s.asm.pendingLenRemaining ≠ 0 →
    ∃ t, exec i s = .next t ∧
      let a : Assembler :=
        { s.asm with accumulator := s.asm.accumulator ||| (b.setWidth 24 <<< s.asm.offset.toNat),
                     offset := s.asm.offset + 8, pendingLenRemaining := s.asm.pendingLenRemaining - 1 }
      (s.asm.pendingLenRemaining = 1 → Emits s t a a.accumulator) ∧ (s.asm.pendingLenRemaining ≠ 1 → Silent s t a)

/-- A data byte with no command in flight restarts the last status by running status, or is dropped (R80). -/
def Obligations.DataByteRestartsOrIsDropped : Prop :=
  ∀ (i : Instr) (b : Byte) (s : State), s.params.WF → Feeds i b → s.asm.awaitingSysexEnd = false → b.toNat ≤ 0x7F →
    s.asm.pendingLenRemaining = 0 →
    let st := s.asm.pendingStatus
    let restart := s.params.runningStatus = true ∧ 0x80 ≤ st.toNat ∧ st.toNat ≤ 0xEF ∧
      (lenOf s.params st = 1 ∨ lenOf s.params st = 2)
    let a : Assembler :=
      { s.asm with accumulator := st.setWidth 24 ||| (b.setWidth 24 <<< 8), offset := 16,
                   pendingLenRemaining := BitVec.ofNat 8 (lenOf s.params st - 1) }
    ∃ t, exec i s = .next t ∧
      (restart → lenOf s.params st = 1 → Emits s t a a.accumulator) ∧ (restart → lenOf s.params st = 2 → Silent s t a) ∧
      (¬ restart → Silent s t s.asm)

/-- Outside a bracket the fourteen one-byte system messages are emitted at once and disturb nothing (R81, R86). -/
def Obligations.OneByteMessageIsEmitted : Prop :=
  ∀ (i : Instr) (b : Byte) (s : State), s.params.WF → Feeds i b → s.asm.awaitingSysexEnd = false →
    0xF1 ≤ b.toNat → b ≠ 0xF7 → ∃ t, exec i s = .next t ∧ Emits s t s.asm (b.setWidth 24)

/-- Every emitted command has a status byte other than 0xF0 and 0xF7 in bits [7:0] and data bytes above it (R85). -/
def Obligations.EmittedCommandsAreWellShaped : Prop :=
  ∀ (i : Instr) (s t : State), s.asm.Inv → exec i s = .next t → t.response.emitted = true →
    0x80 ≤ (t.response.raw.extractLsb' 0 8).toNat ∧ t.response.raw.extractLsb' 0 8 ≠ 0xF0 ∧
    t.response.raw.extractLsb' 0 8 ≠ 0xF7 ∧ (t.response.raw.extractLsb' 8 8).toNat ≤ 0x7F ∧
    (t.response.raw.extractLsb' 16 8).toNat ≤ 0x7F

/-- What a byte emits and leaves in the assembler depends on the assembler and the parameters alone, so on the bytes fed
and not on how they were split or what happened between (R83). -/
def Obligations.EmissionDependsOnTheStreamAlone : Prop :=
  ∀ (i : Instr) (b : Byte) (s s' t t' : State), Feeds i b → s.asm = s'.asm → s.params = s'.params →
    exec i s = .next t → exec i s' = .next t' →
    t.asm = t'.asm ∧ t.response.emitted = t'.response.emitted ∧ t.response.raw = t'.response.raw

/-- Only bytes fed to the assembler and reset write its fields; only ARB_SAMPLE and reset write the arbiter's (R14, R28). -/
def Obligations.UnitFieldsHaveTheirOwnWriters : Prop :=
  ∀ (i : Instr) (s t : State), exec i s = .next t → i ≠ .topReset →
    (i.port ≠ .asmIn → t.asm = s.asm) ∧ ((∀ u b, i ≠ .arbSample u b) → t.arb = s.arb) ∧
    (i.ringOf? = none → t.rings = s.rings)

/-! The RingBuffer -/

/-- RB_WRITE stores the first `min(m, towrite)` bytes from `write_pos` on, wrapping, and no other byte changes; while a write
window is open it is RB_WRITE_WHILE_LOCKED (R88, R128). -/
def Obligations.RbWriteStoresWhatFits : Prop :=
  ∀ (inst : Nat) (data : List Byte) (s : State), s.RingsInv → inst < s.params.numRb →
    Encoded (.rbWrite inst data) (.rbProd inst) 0x20 { inst := inst, data := data } ∧
    ((s.ring inst).writeLock = true →
      ∃ t, exec (.rbWrite inst data) s = .next t ∧ RingFaulted .rbWriteWhileLocked inst s t) ∧
    ((s.ring inst).writeLock = false →
      ∃ t, exec (.rbWrite inst data) s = .next t ∧ RingFrame inst s t ∧
        let r := s.ring inst
        let r' := t.ring inst
        let k := min data.length (towrite s.params r)
        t.response = { written := k } ∧ r' = { r with writePos := r'.writePos, storage := r'.storage } ∧
        r'.writePos.toNat = (r.writePos.toNat + k) % s.params.rbCapacity ∧
        (∀ j, j < k → Memory.read r'.storage ((r.writePos.toNat + j) % s.params.rbCapacity) = data[j]?) ∧
        ∀ a, (∀ j, j < k → a ≠ (r.writePos.toNat + j) % s.params.rbCapacity) →
          Memory.read r'.storage a = Memory.read r.storage a)

/-- RB_GET_WRITE_WINDOW sets the lock and answers the writable run, which never wraps (R93). -/
def Obligations.RbGetWriteWindowLocks : Prop :=
  ∀ (inst : Nat) (s : State), s.RingsInv → inst < s.params.numRb →
    Encoded (.rbGetWriteWindow inst) (.rbProd inst) 0x21 { inst := inst } ∧
    ∃ t, exec (.rbGetWriteWindow inst) s = .next t ∧ RingFrame inst s t ∧
      t.ring inst = { s.ring inst with writeLock := true } ∧
      t.response = { start := (s.ring inst).writePos.toNat, len := writeRun s.params (s.ring inst) } ∧
      t.response.start + t.response.len ≤ s.params.rbCapacity ∧ t.response.len ≤ towrite s.params (s.ring inst)

/-- RB_COMMIT_WRITE of at most the writable run stores its bytes and closes the window; without a window, and with more bytes
than the run, it faults and the lock stays (R94, R131). -/
def Obligations.RbCommitWriteClosesTheWindow : Prop :=
  ∀ (inst : Nat) (data : List Byte) (s : State), s.RingsInv → inst < s.params.numRb →
    Encoded (.rbCommitWrite inst data) (.rbProd inst) 0x22 { inst := inst, data := data } ∧
    ((s.ring inst).writeLock = false →
      ∃ t, exec (.rbCommitWrite inst data) s = .next t ∧ RingFaulted .rbCommitNotLocked inst s t) ∧
    ((s.ring inst).writeLock = true → writeRun s.params (s.ring inst) < data.length →
      ∃ t, exec (.rbCommitWrite inst data) s = .next t ∧ RingFaulted .rbCommitOversize inst s t) ∧
    ((s.ring inst).writeLock = true → data.length ≤ writeRun s.params (s.ring inst) →
      ∃ t, exec (.rbCommitWrite inst data) s = .next t ∧ RingFrame inst s t ∧
        let r := s.ring inst
        let r' := t.ring inst
        t.response = { committed := data.length } ∧
        r' = { r with writeLock := false, writePos := r'.writePos, storage := r'.storage } ∧
        r'.writePos.toNat = (r.writePos.toNat + data.length) % s.params.rbCapacity ∧
        (∀ j, j < data.length → Memory.read r'.storage ((r.writePos.toNat + j) % s.params.rbCapacity) = data[j]?) ∧
        ∀ a, (∀ j, j < data.length → a ≠ (r.writePos.toNat + j) % s.params.rbCapacity) →
          Memory.read r'.storage a = Memory.read r.storage a)

/-- RB_TOREAD, RB_TOWRITE and RB_STATUS answer the counts and the flags and change nothing (R30, R95, R97, R98). -/
def Obligations.RbCountsAndStatus : Prop :=
  ∀ (inst : Nat) (s : State), s.RingsInv → inst < s.params.numRb →
    let r := s.ring inst
    let n := (r.writePos.toNat + s.params.rbCapacity - r.readPos.toNat) % s.params.rbCapacity
    Encoded (.rbToread inst) (.rbCons inst) 0x2C { inst := inst } ∧
    Encoded (.rbTowrite inst) (.rbProd inst) 0x23 { inst := inst } ∧
    Encoded (.rbStatus inst) (.rbCons inst) 0x2D { inst := inst } ∧
    exec (.rbToread inst) s = .next { s with response := { count := n } } ∧
    exec (.rbTowrite inst) s = .next { s with response := { count := s.params.rbCapacity - 1 - n } } ∧
    ∃ w : BitVec 8, exec (.rbStatus inst) s = .next { s with response := { status8 := w } } ∧
      w.getLsbD 0 = r.writeLock ∧ w.getLsbD 1 = r.rbFault ∧ w.extractLsb' 2 6 = 0

/-- RB_READ returns the oldest `min(n, toread)` bytes, advances `read_pos` past them and runs reset-on-empty (R89, R96). -/
def Obligations.RbReadTakesTheOldestBytes : Prop :=
  ∀ (inst : Nat) (n : Pos) (s : State), s.RingsInv → inst < s.params.numRb →
    Encoded (.rbRead inst n) (.rbCons inst) 0x28 { inst := inst, count := n } ∧
    ∃ t, exec (.rbRead inst n) s = .next t ∧ RingFrame inst s t ∧
      let r := s.ring inst
      let r' := t.ring inst
      let k := min n.toNat (toread s.params r)
      t.response = { data := t.response.data } ∧ t.response.data.length = k ∧
      (∀ j, j < k → Memory.read r.storage ((r.readPos.toNat + j) % s.params.rbCapacity) = t.response.data[j]?) ∧
      r' = { r with readPos := r'.readPos, writePos := r'.writePos } ∧
      (if s.params.rbResetOnEmpty = true ∧ k = toread s.params r ∧ r.writeLock = false then
         r'.readPos = 0 ∧ r'.writePos = 0
       else r'.readPos.toNat = (r.readPos.toNat + k) % s.params.rbCapacity ∧ r'.writePos = r.writePos)

/-- RB_PEEK returns the oldest bytes and changes nothing (R90). -/
def Obligations.RbPeekChangesNothing : Prop :=
  ∀ (inst : Nat) (n : Pos) (s : State), s.RingsInv → inst < s.params.numRb →
    Encoded (.rbPeek inst n) (.rbCons inst) 0x29 { inst := inst, count := n } ∧
    ∃ bs : List Byte, exec (.rbPeek inst n) s = .next { s with response := { data := bs } } ∧
      bs.length = min n.toNat (toread s.params (s.ring inst)) ∧
      ∀ j, j < bs.length →
        Memory.read (s.ring inst).storage (((s.ring inst).readPos.toNat + j) % s.params.rbCapacity) = bs[j]?

/-- RB_GET_READ_WINDOW answers the readable run and its bytes, which do not wrap, and changes nothing (R91). -/
def Obligations.RbGetReadWindowChangesNothing : Prop :=
  ∀ (inst : Nat) (s : State), s.RingsInv → inst < s.params.numRb →
    Encoded (.rbGetReadWindow inst) (.rbCons inst) 0x2A { inst := inst } ∧
    ∃ bs : List Byte,
      exec (.rbGetReadWindow inst) s =
        .next { s with response := { start := (s.ring inst).readPos.toNat, len := readRun s.params (s.ring inst), data := bs } } ∧
      bs.length = readRun s.params (s.ring inst) ∧ bs.length ≤ toread s.params (s.ring inst) ∧
      ∀ j, j < bs.length → (s.ring inst).readPos.toNat + j < s.params.rbCapacity ∧
        Memory.read (s.ring inst).storage ((s.ring inst).readPos.toNat + j) = bs[j]?

/-- RB_CONSUME of at most `toread` bytes advances `read_pos` and runs reset-on-empty; of more it is RB_CONSUME_OVERSIZE
(R92, R96, R128). -/
def Obligations.RbConsumeAdvances : Prop :=
  ∀ (inst : Nat) (k : Pos) (s : State), s.RingsInv → inst < s.params.numRb →
    Encoded (.rbConsume inst k) (.rbCons inst) 0x2B { inst := inst, count := k } ∧
    (toread s.params (s.ring inst) < k.toNat →
      ∃ t, exec (.rbConsume inst k) s = .next t ∧ RingFaulted .rbConsumeOversize inst s t) ∧
    (k.toNat ≤ toread s.params (s.ring inst) →
      ∃ t, exec (.rbConsume inst k) s = .next t ∧ RingFrame inst s t ∧ t.response = { consumed := k.toNat } ∧
        let r := s.ring inst
        let r' := t.ring inst
        r' = { r with readPos := r'.readPos, writePos := r'.writePos } ∧
        (if s.params.rbResetOnEmpty = true ∧ k.toNat = toread s.params r ∧ r.writeLock = false then
           r'.readPos = 0 ∧ r'.writePos = 0
         else r'.readPos.toNat = (r.readPos.toNat + k.toNat) % s.params.rbCapacity ∧ r'.writePos = r.writePos))

/-- A ring is a first-in first-out queue of bytes: producer operations append, consumer operations take the oldest, and no
other operation but reset changes what a ring holds (R48, R88 to R94). -/
def Obligations.RingIsAFifoOfBytes : Prop :=
  ∀ (i : Instr) (s t : State), s.RingsInv → exec i s = .next t → i ≠ .topReset → t.response.faulted = false →
    ∀ j, j < s.params.numRb →
      let before := ringContents s.params (s.ring j)
      let after := ringContents t.params (t.ring j)
      match i with
      | .rbWrite inst data => if inst = j then after = before ++ data.take t.response.written else after = before
      | .rbCommitWrite inst data => if inst = j then after = before ++ data else after = before
      | .rbRead inst n => if inst = j then t.response.data = before.take n.toNat ∧ after = before.drop n.toNat else after = before
      | .rbConsume inst k => if inst = j then after = before.drop k.toNat else after = before
      | .rbPeek inst n => after = before ∧ (inst = j → t.response.data = before.take n.toNat)
      | .rbGetReadWindow inst => after = before ∧ (inst = j → t.response.data <+: before)
      | _ => after = before

/-- `toread + towrite = C − 1`, `read_run ≤ toread` and `write_run ≤ towrite` in every good ring (R87, R100). -/
def Obligations.RingCountsAddUp : Prop :=
  ∀ (p : Params) (r : Ring), p.WF → r.Inv p →
    toread p r + towrite p r = p.rbCapacity - 1 ∧ readRun p r ≤ toread p r ∧ writeRun p r ≤ towrite p r ∧
    (toread p r = 0 ↔ r.readPos = r.writePos)

/-- While a write window is open no operation but its commit and reset moves `write_pos`, `read_pos` only advances, and the
window stays writable (R101). -/
def Obligations.OpenWindowIsStable : Prop :=
  ∀ (i : Instr) (s t : State) (inst : Nat), s.RingsInv → inst < s.params.numRb → (s.ring inst).writeLock = true →
    exec i s = .next t → i ≠ .topReset → (∀ data, i ≠ .rbCommitWrite inst data) →
    (t.ring inst).writeLock = true ∧ (t.ring inst).writePos = (s.ring inst).writePos ∧
    (∃ k, k ≤ toread s.params (s.ring inst) ∧
      (t.ring inst).readPos.toNat = ((s.ring inst).readPos.toNat + k) % s.params.rbCapacity) ∧
    writeRun s.params (s.ring inst) ≤ writeRun t.params (t.ring inst)

/-! The EventQueue -/

/-- EQ_PUSH stores its word, or faults with EQ_OVERFLOW when the queue is full; a None event is refused with ILLEGAL_OP and
not stored (R103, R110). -/
def Obligations.EqPushStoresOrOverflows : Prop :=
  ∀ (w : EventWord) (s : State), s.params.WF →
    Encoded (.eqPush w) .eqPush 0x30 { word := w } ∧
    (w.extractLsb' 24 8 = 0 → ∃ t, exec (.eqPush w) s = .next t ∧ IllegalOp s t) ∧
    (w.extractLsb' 24 8 ≠ 0 → ∃ t ok, exec (.eqPush w) s = .next t ∧ Pushes s t w ok ∧
      t = { s with queue := t.queue, faults := t.faults, response := { ok := ok, faulted := !ok } })

/-- EQ_POP: the pushed-back event first, else the oldest entry, else the None event (R104, R105). -/
def Obligations.EqPopDelivers : Prop :=
  ∀ s : State, s.QueueInv →
    let q := s.queue
    Encoded .eqPop .eqPop 0x38 {} ∧
    (q.slotValid = true →
      exec .eqPop s = .next { s with queue := { q with slotValid := false, pbArmed := false }, response := { word := q.slot } }) ∧
    (q.slotValid = false → eqCount s.params q = 0 →
      exec .eqPop s = .next { s with queue := { q with pbArmed := false }, response := { word := 0x00000000 } }) ∧
    (q.slotValid = false → eqCount s.params q ≠ 0 →
      ∃ (w : EventWord) (rd : Pos), Memory.read q.entry q.rd.toNat = some w ∧ rd.toNat = (q.rd.toNat + 1) % s.params.eqDepth ∧
        w.extractLsb' 24 8 ≠ 0 ∧
        exec .eqPop s = .next { s with queue := { q with rd := rd, last := w, pbArmed := true }, response := { word := w } })

/-- EQ_PUSH_BACK puts the last event into the lookahead slot when it is armed, and else is PUSHBACK_ILLEGAL (R107). -/
def Obligations.EqPushBackOnlyWhenArmed : Prop :=
  ∀ s : State,
    Encoded .eqPushBack .eqPop 0x39 {} ∧
    (s.queue.pbArmed = true →
      exec .eqPushBack s =
        .next { s with queue := { s.queue with slot := s.queue.last, slotValid := true, pbArmed := false }, response := {} }) ∧
    (s.queue.pbArmed = false → ∃ t, exec .eqPushBack s = .next t ∧
      t = { s with queue := { s.queue with pbFault := true }, faults := t.faults, response := Response.fault } ∧
      FaultRecorded .pushbackIllegal s t)

/-- After an accepted push-back the next pop re-delivers the event, whatever was pushed in between, and a push-back straight
after that faults (R107, R108, R112). -/
def Obligations.EventIsRedeliveredOnce : Prop :=
  ∀ (s t u v : State) (w : EventWord), s.queue.pbArmed = true → exec .eqPushBack s = .next t → exec (.eqPush w) t = .next u →
    exec .eqPop u = .next v →
    v.response.word = s.queue.last ∧ v.queue.rd = s.queue.rd ∧
    ∃ x, exec .eqPushBack v = .next x ∧ x.response = Response.fault ∧ x.queue = { v.queue with pbFault := true }

/-- EQ_STATUS reads the flags and the count into its word and changes nothing (R31, R106). -/
def Obligations.EqStatusReadsTheQueue : Prop :=
  ∀ s : State, s.QueueInv → Encoded .eqStatus .eqPop 0x3A {} ∧
    ∃ w : BitVec 32, exec .eqStatus s = .next { s with response := { status32 := w } } ∧
    w.getLsbD 0 = s.queue.slotValid ∧ w.getLsbD 1 = s.queue.pbArmed ∧ w.getLsbD 2 = s.queue.eqOverflow ∧
    w.getLsbD 3 = s.queue.pbFault ∧ w.extractLsb' 4 12 = 0 ∧
    (w.extractLsb' 16 16).toNat = (s.queue.wr.toNat + s.params.eqDepth - s.queue.rd.toNat) % s.params.eqDepth

/-- The EventQueue is a first-in first-out queue of events with one push-back: a pop delivers the first, an accepted push
appends, a push-back puts the last delivered event in front, once, and nothing else but reset changes what it holds (R111). -/
def Obligations.EventQueueIsAFifo : Prop :=
  ∀ (i : Instr) (s t : State), s.QueueInv → exec i s = .next t → i ≠ .topReset →
    let before := queueContents s.params s.queue
    let after := queueContents t.params t.queue
    (i ≠ .eqPop → t.queue.last = s.queue.last ∧ (i ≠ .eqPushBack → t.queue.pbArmed = s.queue.pbArmed)) ∧
    match i with
    | .eqPop => t.response.word = before.headD 0 ∧ after = before.tail ∧
        (t.queue.pbArmed = true → t.queue.last = t.response.word ∧ s.queue.slotValid = false)
    | .eqPushBack => t.queue.pbArmed = false ∧
        if s.queue.pbArmed = true then after = s.queue.last :: before else after = before
    | .eqPush w => after = if t.response.ok = true then before ++ [w] else before
    | .arbSample _ _ => if t.response.pushed = true then ∃ w, after = before ++ [w] ∧ w.extractLsb' 24 8 = 0x02 else after = before
    | _ => after = if t.response.accepted = true then before ++ [0x01#8 ++ t.response.raw] else before

/-! The arbiter -/

/-- ARB_SAMPLE of the stored pair pushes nothing; of another pair it pushes one event with the pair, its outcome and whether
the outcome changed, and stores the pair only when the push is accepted (R63, R113, R115, R118). -/
def Obligations.ArbSampleReportsAChange : Prop :=
  ∀ (usb bus : Bool) (s : State), s.params.WF →
    let code : Bool → Bool → BitVec 2 := fun u b => if u && b then 0b10 else if u ^^ b then 0b01 else 0b00
    Encoded (.arbSample usb bus) .arbIn 0x40 { usb := usb, bus := bus } ∧
    (usb = s.arb.prevUsb ∧ bus = s.arb.prevBus →
      exec (.arbSample usb bus) s = .next { s with response := { outcome := code usb bus } }) ∧
    (¬ (usb = s.arb.prevUsb ∧ bus = s.arb.prevBus) →
      ∃ (t : State) (w : EventWord) (ok : Bool), exec (.arbSample usb bus) s = .next t ∧ Pushes s t w ok ∧
        w.extractLsb' 24 8 = 0x02 ∧ w.getLsbD 0 = usb ∧ w.getLsbD 1 = bus ∧ w.extractLsb' 2 2 = code usb bus ∧
        (w.getLsbD 4 = true ↔ code usb bus ≠ code s.arb.prevUsb s.arb.prevBus) ∧ w.extractLsb' 5 19 = 0 ∧
        t = { s with queue := t.queue, faults := t.faults, arb := if ok then { prevUsb := usb, prevBus := bus } else s.arb,
                     response := { outcome := code usb bus, pushed := ok } })

/-- ARB_OUTCOME answers the outcome of the stored pair and changes nothing (R113, R117). -/
def Obligations.ArbOutcomeReadsTheStoredPair : Prop :=
  ∀ s : State, Encoded .arbOutcome .arbIn 0x41 {} ∧
    exec .arbOutcome s = .next { s with response := { outcome :=
      if s.arb.prevUsb && s.arb.prevBus then 0b10 else if s.arb.prevUsb ^^ s.arb.prevBus then 0b01 else 0b00 } }

/-! The whole machine -/

/-- No operation but TOP_RESET clears a fault flag, only a flag's own faults set it, a step that clears one is a reset of the
whole block, and TOP_STATUS is 0 when no flag is set (R32, R128, R129). -/
def Obligations.FaultFlagsAreSticky : Prop :=
  (∀ (i : Instr) (s t : State), exec i s = .next t → i ≠ .topReset →
    (s.illegalOp = true → t.illegalOp = true) ∧ (s.queue.pbFault = true → t.queue.pbFault = true) ∧
    (s.queue.eqOverflow = true → t.queue.eqOverflow = true) ∧
    (∀ j, (s.ring j).rbFault = true → (t.ring j).rbFault = true) ∧
    (t.illegalOp = true → s.illegalOp = true ∨ i.wellFormed s.params = false) ∧
    (t.queue.pbFault = true → s.queue.pbFault = true ∨ (i = .eqPushBack ∧ s.queue.pbArmed = false)) ∧
    (t.queue.eqOverflow = true → s.queue.eqOverflow = true ∨
      (eqCount s.params s.queue = s.params.eqDepth - 1 ∧
        ((∃ w, i = .eqPush w) ∨ i.port = .asmIn ∨ ∃ usb bus, i = .arbSample usb bus))) ∧
    (∀ j, (t.ring j).rbFault = true → (s.ring j).rbFault = true ∨ RingMisuse i j s)) ∧
  (∀ s t : State, step s = .next t →
    ((s.illegalOp = true → t.illegalOp = true) ∧ (s.queue.pbFault = true → t.queue.pbFault = true) ∧
      (s.queue.eqOverflow = true → t.queue.eqOverflow = true) ∧
      ∀ j, (s.ring j).rbFault = true → (t.ring j).rbFault = true) ∨ HardwareReset t) ∧
  (∀ s : State, faultFree s ↔ s.illegalOp = false ∧ (∀ r ∈ s.rings, r.rbFault = false) ∧ s.queue.pbFault = false ∧
    s.queue.eqOverflow = false)

/-- The fault set only grows, in every step (R140). -/
def Obligations.FaultSetOnlyGrows : Prop :=
  ∀ (s t : State), step s = .next t → ∀ c, c ∈ s.faults → c ∈ t.faults

/-- A faulted operation answers `faulted = 1` with every other field 0, and changes no state but sticky flags and the fault
set (R11, R127, R130). -/
def Obligations.FaultedOperationChangesOnlyFlags : Prop :=
  ∀ (i : Instr) (s t : State), exec i s = .next t → t.response.faulted = true →
    t.response = Response.fault ∧
    t = { s with rings := t.rings, queue := t.queue, illegalOp := t.illegalOp, faults := t.faults, response := t.response } ∧
    t.queue = { s.queue with eqOverflow := t.queue.eqOverflow, pbFault := t.queue.pbFault } ∧
    t.rings.length = s.rings.length ∧ ∀ j, t.ring j = { s.ring j with rbFault := (t.ring j).rbFault }

/-- No step changes a parameter or the binding of ports to agents (R5, R52, R143). -/
def Obligations.ParametersAreFixed : Prop :=
  ∀ (s t : State), step s = .next t → t.params = s.params ∧ t.binding = s.binding

/-- The rings stay good in every step: positions in range, storage canonical, and every readable byte written since reset
(R22, R37, R40, R100). -/
def Obligations.RingInvariantIsKept : Prop := ∀ (s t : State), s.RingsInv → step s = .next t → t.RingsInv

/-- The queue stays good in every step (R23, R27, R40, R110). -/
def Obligations.QueueInvariantIsKept : Prop := ∀ (s t : State), s.QueueInv → step s = .next t → t.QueueInv

/-- The assembler's fields keep the ranges and relations the spec gives in every step (R16 to R19). -/
def Obligations.AssemblerInvariantIsKept : Prop := ∀ (s t : State), s.asm.Inv → step s = .next t → t.asm.Inv

/-- A set flag has its fault recorded, and the fault set stays canonical, in every step (R128, R140). -/
def Obligations.FaultRecordInvariantIsKept : Prop := ∀ (s t : State), s.FaultsInv → step s = .next t → t.FaultsInv

/-- The state after reset meets the whole invariant. -/
def Obligations.ResetStateIsGood : Prop := State.reset.Inv

/-- From a good state no step reads a location not written since reset: no operation can observe an unspecified value (R40). -/
def Obligations.UnwrittenStorageIsNeverRead : Prop :=
  ∀ (s : State) (f : Fault), s.RingsInv → s.QueueInv → step s ≠ .fault f

/-! The MidiCommand view -/

/-- The MidiCommand view of a raw command: its three fields, its class and channel, whether `data1` is valid, and the length
of its byte form (R59). -/
def Obligations.MidiCommandViewOfARawCommand : Prop :=
  ∀ (p : Params) (r : Raw),
    let status : Byte := r.extractLsb' 0 8
    rawStatus r = status ∧ rawData0 r = r.extractLsb' 8 8 ∧ rawData1 r = r.extractLsb' 16 8 ∧
    r = rawData1 r ++ rawData0 r ++ rawStatus r ∧
    commandClass r = status &&& 0xF0 ∧ commandChannel r = status &&& 0x0F ∧
    (0x80 ≤ status.toNat → status.toNat ≤ 0xEF →
      byteFormLength p r = some (1 + lenOf p status) ∧ (data1Valid p r = true ↔ lenOf p status = 2)) ∧
    (0xF1 ≤ status.toNat → status ≠ 0xF7 → byteFormLength p r = some 1 ∧ data1Valid p r = false)

/-- The data bytes of the command in flight, taken in and to come, are as many as its length says, at reset and after every
step; and an emitted command has a byte form of 1 to 3 bytes, and 0 in the data fields past its length (R58, R59, R65). -/
def Obligations.EmittedCommandsFitTheirByteForm : Prop :=
  State.reset.asm.FitsTable State.reset.params ∧
  (∀ s t : State, s.asm.Inv → s.asm.FitsTable s.params → step s = .next t → t.asm.FitsTable t.params) ∧
  ∀ (i : Instr) (s t : State), s.asm.Inv → s.asm.FitsTable s.params → exec i s = .next t → t.response.emitted = true →
    ∃ len ≤ 2, byteFormLength s.params t.response.raw = some (1 + len) ∧
      (len < 2 → t.response.raw.extractLsb' 16 8 = 0) ∧ (len < 1 → t.response.raw.extractLsb' 8 8 = 0)
end

