-- ==== Sys2Proof/Laws/Memory.lean ====
section
/-! SUPPORT. What the storage operations do: one location, and runs of locations taken modulo the size. -/

namespace Sys2Proof.Machine

variable {α : Type}

@[simp] theorem Memory.read_nil (a : Nat) : Memory.read ([] : Memory α) a = none := rfl

@[simp] theorem Memory.read_cons (c : Nat × α) (m : Memory α) (a : Nat) :
    Memory.read (c :: m) a = if c.1 = a then some c.2 else Memory.read m a := rfl

/-- A read after a write: the written value at its index, every other index as before. -/
@[simp] theorem Memory.read_write (m : Memory α) (a b : Nat) (v : α) :
    Memory.read (Memory.write m a v) b = if b = a then some v else Memory.read m b := by
  induction m with
  | nil => simp [Memory.write, eq_comm]
  | cons c m ih =>
    simp only [Memory.write]
    split
    · simp [eq_comm]
    · split
      · subst a
        by_cases h : b = c.1 <;> simp [h, eq_comm]
      · simp only [Memory.read_cons, ih]
        by_cases hb : b = a
        · subst hb
          simp [show ¬ c.1 = b by omega]
        · simp [hb]

theorem Memory.mem_of_read {m : Memory α} {a : Nat} {v : α} (h : Memory.read m a = some v) : (a, v) ∈ m := by
  induction m with
  | nil => simp at h
  | cons c m ih =>
    rw [Memory.read_cons] at h
    split at h
    · cases h
      subst a
      exact List.mem_cons_self
    · exact List.mem_cons_of_mem _ (ih h)

theorem Memory.mem_write {m : Memory α} {a : Nat} {v : α} {c : Nat × α} (h : c ∈ Memory.write m a v) :
    c = (a, v) ∨ c ∈ m := by
  induction m with
  | nil => simpa [Memory.write] using h
  | cons d m ih =>
    simp only [Memory.write] at h
    split at h
    · exact List.mem_cons.mp h
    · split at h
      · exact (List.mem_cons.mp h).imp_right (List.mem_cons_of_mem _)
      · rcases List.mem_cons.mp h with h | h
        · exact .inr (h ▸ List.mem_cons_self)
        · exact (ih h).imp_right (List.mem_cons_of_mem _)

theorem Memory.wf_cons {c : Nat × α} {m : Memory α} :
    Memory.wf (c :: m) = true ↔ (∀ d ∈ m, c.1 < d.1) ∧ Memory.wf m = true := by
  induction m generalizing c with
  | nil => simp [Memory.wf]
  | cons d m ih =>
    simp only [Memory.wf, Bool.and_eq_true, decide_eq_true_eq]
    constructor
    · rintro ⟨hcd, hm⟩
      refine ⟨fun e he => ?_, hm⟩
      rcases List.mem_cons.mp he with rfl | he
      · exact hcd
      · exact Nat.lt_trans hcd ((ih.mp hm).1 e he)
    · rintro ⟨h, hm⟩
      exact ⟨h d List.mem_cons_self, hm⟩

/-- A write keeps the canonical form. -/
theorem Memory.wf_write {m : Memory α} (h : Memory.wf m = true) (a : Nat) (v : α) :
    Memory.wf (Memory.write m a v) = true := by
  induction m with
  | nil => rfl
  | cons c m ih =>
    obtain ⟨hc, hm⟩ := Memory.wf_cons.mp h
    simp only [Memory.write]
    split
    · next hac =>
      refine Memory.wf_cons.mpr ⟨fun d hd => ?_, h⟩
      rcases List.mem_cons.mp hd with rfl | hd
      · exact hac
      · exact Nat.lt_trans hac (hc d hd)
    · split
      · next _ heq => exact Memory.wf_cons.mpr ⟨fun d hd => heq ▸ hc d hd, hm⟩
      · next hlt hne =>
        refine Memory.wf_cons.mpr ⟨fun d hd => ?_, ih hm⟩
        rcases Memory.mem_write hd with rfl | hd
        · change c.1 < a
          omega
        · exact hc d hd

/-! Runs -/

theorem writeCells_wf {m : Memory α} (h : Memory.wf m = true) (size p : Nat) (vs : List α) :
    Memory.wf (writeCells size m p vs) = true := by
  induction vs generalizing m p with
  | nil => exact h
  | cons v vs ih => exact ih (Memory.wf_write h _ _) _

theorem mem_writeCells {m : Memory α} {size p : Nat} {vs : List α} {c : Nat × α} (hs : 0 < size)
    (h : c ∈ writeCells size m p vs) : (c.1 < size ∧ c.2 ∈ vs) ∨ c ∈ m := by
  induction vs generalizing m p with
  | nil => exact .inr h
  | cons v vs ih =>
    rcases ih h with ⟨h1, h2⟩ | h
    · exact .inl ⟨h1, List.mem_cons_of_mem _ h2⟩
    · rcases Memory.mem_write h with rfl | h
      · exact .inl ⟨Nat.mod_lt _ hs, List.mem_cons_self⟩
      · exact .inr h

/-- A run of writes leaves every index outside it as it was. -/
theorem read_writeCells_outside {m : Memory α} {size p a : Nat} {vs : List α}
    (h : ∀ j, j < vs.length → a ≠ (p + j) % size) :
    Memory.read (writeCells size m p vs) a = Memory.read m a := by
  induction vs generalizing m p with
  | nil => rfl
  | cons v vs ih =>
    rw [writeCells, ih (fun j hj => by
      rw [show p + 1 + j = p + (j + 1) by omega]; exact h (j + 1) (by simpa using hj)),
      Memory.read_write, if_neg (by simpa using h 0 (by simp))]

/-- Two indices of a run of at most `size` locations are different. -/
theorem add_mod_inj {size p i j : Nat} (hi : i < size) (hj : j < size) (h : (p + i) % size = (p + j) % size) : i = j := by
  have h1 := Nat.sub_mod_eq_zero_of_mod_eq h
  have h2 := Nat.sub_mod_eq_zero_of_mod_eq h.symm
  rw [Nat.mod_eq_of_lt (by omega)] at h1 h2
  omega

/-- A run of at most `size` writes stores each value at its index. -/
theorem read_writeCells_inside {m : Memory α} {size p j : Nat} {vs : List α} (hlen : vs.length ≤ size)
    (hj : j < vs.length) : Memory.read (writeCells size m p vs) ((p + j) % size) = some vs[j] := by
  induction vs generalizing m p j with
  | nil => simp at hj
  | cons v vs ih =>
    rw [writeCells]
    cases j with
    | zero =>
      rw [read_writeCells_outside, Memory.read_write]
      · simp
      · intro i hi heq
        have := add_mod_inj (size := size) (p := p) (i := 0) (j := i + 1) (by simp at hlen; omega)
          (by simp at hlen; omega) (by rw [heq, Nat.add_assoc, Nat.add_comm 1 i])
        omega
    | succ j =>
      have := ih (m := Memory.write m (p % size) v) (p := p + 1) (j := j) (by simp at hlen; omega) (by simpa using hj)
      simpa [Nat.add_assoc, Nat.add_comm 1 j] using this

/-- Reading a run succeeds exactly when every location of it has a value. -/
theorem readCells_isSome {m : Memory α} {size p k : Nat} :
    (readCells size m p k).isSome = true ↔ ∀ j, j < k → (Memory.read m ((p + j) % size)).isSome = true := by
  induction k generalizing p with
  | zero => simp [readCells]
  | succ k ih =>
    have hstep : (readCells size m p (k + 1)).isSome = true ↔
        (Memory.read m (p % size)).isSome = true ∧ (readCells size m (p + 1) k).isSome = true := by
      rw [readCells]
      cases Memory.read m (p % size) <;> cases readCells size m (p + 1) k <;> simp
    rw [hstep, ih]
    constructor
    · rintro ⟨h0, h⟩ j hj
      cases j with
      | zero => simpa using h0
      | succ j => simpa [Nat.add_assoc, Nat.add_comm 1 j] using h j (by omega)
    · intro h
      exact ⟨by simpa using h 0 (by omega), fun j hj => by
        simpa [Nat.add_assoc, Nat.add_comm 1 j] using h (j + 1) (by omega)⟩

/-- A run that is read has its length. -/
theorem readCells_length {m : Memory α} {size p k : Nat} {vs : List α} (h : readCells size m p k = some vs) :
    vs.length = k := by
  induction k generalizing p vs with
  | zero => cases h; rfl
  | succ k ih =>
    simp only [readCells] at h
    split at h
    · next v ws _ hws =>
      cases h
      simp [ih hws]
    · cases h

/-- The `j`-th value of a run is the value at its index. -/
theorem readCells_getElem {m : Memory α} {size p k : Nat} {vs : List α} (h : readCells size m p k = some vs) {j : Nat}
    (hj : j < vs.length) : Memory.read m ((p + j) % size) = some vs[j] := by
  induction k generalizing p vs j with
  | zero => cases h; simp at hj
  | succ k ih =>
    simp only [readCells] at h
    split at h
    · next v ws hv hws =>
      cases h
      cases j with
      | zero => simpa using hv
      | succ j =>
        rw [show p + (j + 1) = p + 1 + j by omega]
        exact ih hws (by simpa using hj)
    · cases h

/-- A run is determined by its locations. -/
theorem readCells_eq_some {m : Memory α} {size p : Nat} {vs : List α}
    (h : ∀ j, (hj : j < vs.length) → Memory.read m ((p + j) % size) = some vs[j]) :
    readCells size m p vs.length = some vs := by
  induction vs generalizing p with
  | nil => rfl
  | cons v vs ih =>
    have h0 : Memory.read m (p % size) = some v := h 0 (by simp)
    have h1 : readCells size m (p + 1) vs.length = some vs :=
      ih fun j hj => by
        rw [show p + 1 + j = p + (j + 1) by omega]
        exact h (j + 1) (by simpa using hj)
    simp [readCells, h0, h1]

/-- A run depends only on its locations. -/
theorem readCells_congr {m m' : Memory α} {size p p' k : Nat}
    (h : ∀ j, j < k → Memory.read m' ((p' + j) % size) = Memory.read m ((p + j) % size)) :
    readCells size m' p' k = readCells size m p k := by
  induction k generalizing p p' with
  | zero => rfl
  | succ k ih =>
    have h0 : Memory.read m' (p' % size) = Memory.read m (p % size) := by simpa using h 0 (by omega)
    have h1 : readCells size m' (p' + 1) k = readCells size m (p + 1) k :=
      ih fun j hj => by simpa [Nat.add_assoc, Nat.add_comm 1 j] using h (j + 1) (by omega)
    simp only [readCells, h0, h1]

/-- A run of `i + k` locations is a run of `i` and then a run of `k`. -/
theorem readCells_add {m : Memory α} {size p i k : Nat} {vs ws : List α} (h1 : readCells size m p i = some vs)
    (h2 : readCells size m (p + i) k = some ws) : readCells size m p (i + k) = some (vs ++ ws) := by
  induction i generalizing p vs with
  | zero => cases h1; simpa using h2
  | succ i ih =>
    simp only [readCells] at h1
    split at h1
    · next v us hv hus =>
      cases h1
      have := ih hus (by rwa [Nat.add_assoc, Nat.add_comm 1 i])
      rw [Nat.add_right_comm, readCells, hv, this]
      rfl
    · cases h1

/-- The first part of a run that is read. -/
theorem readCells_take {m : Memory α} {size p k i : Nat} {vs : List α} (h : readCells size m p k = some vs) (hi : i ≤ k) :
    readCells size m p i = some (vs.take i) := by
  have hlen := readCells_length h
  have := readCells_eq_some (m := m) (size := size) (p := p) (vs := vs.take i)
    (fun j hj => by rw [List.getElem_take]; exact readCells_getElem h (by simp at hj; omega))
  rwa [List.length_take, Nat.min_eq_left (by omega)] at this

/-- The rest of a run that is read. -/
theorem readCells_drop {m : Memory α} {size p k i : Nat} {vs : List α} (h : readCells size m p k = some vs) (hi : i ≤ k) :
    readCells size m (p + i) (k - i) = some (vs.drop i) := by
  have hlen := readCells_length h
  have := readCells_eq_some (m := m) (size := size) (p := p + i) (vs := vs.drop i)
    (fun j hj => by
      rw [List.getElem_drop, Nat.add_assoc]
      exact readCells_getElem h (by simp at hj; omega))
  rwa [List.length_drop, hlen] at this

/-- A run may start anywhere congruent. -/
theorem readCells_mod {m : Memory α} {size p k : Nat} : readCells size m (p % size) k = readCells size m p k :=
  readCells_congr fun j _ => by rw [Nat.mod_add_mod]

theorem writeCells_mod {m : Memory α} {size p : Nat} {vs : List α} : writeCells size m (p % size) vs = writeCells size m p vs := by
  cases vs with
  | nil => rfl
  | cons v vs =>
    rw [writeCells, writeCells, Nat.mod_mod]
    induction vs generalizing m p v with
    | nil => rfl
    | cons w vs ih =>
      rw [writeCells, writeCells, Nat.mod_add_mod]
      have h2 := ih (m := Memory.write m (p % size) v) (p := p + 1) (v := w)
      have h3 : ∀ q q' : Nat, q % size = q' % size → ∀ m' : Memory α, writeCells size m' (q + 1) vs = writeCells size m' (q' + 1) vs := by
        intro q q' hq
        clear h2 ih
        induction vs generalizing q q' with
        | nil => intro _; rfl
        | cons x vs ihv =>
          intro m'
          have hq1 : (q + 1) % size = (q' + 1) % size := by rw [Nat.add_mod, hq, ← Nat.add_mod]
          rw [writeCells, writeCells, hq1, ihv (q + 1) (q' + 1) hq1]
      exact h3 _ _ (by rw [Nat.mod_add_mod]) _

end Sys2Proof.Machine
end

