-- ==== Sys2Proof/Laws/State.lean ====
section
/-! SUPPORT. One lemma per field per named update of State, and what the shared operations leave alone. -/

namespace Sys2Proof.Machine

variable (s : State)

@[simp] theorem State.setAsm_params (a : Assembler) : (s.setAsm a).params = s.params := rfl
@[simp] theorem State.setAsm_asm (a : Assembler) : (s.setAsm a).asm = a := rfl
@[simp] theorem State.setAsm_rings (a : Assembler) : (s.setAsm a).rings = s.rings := rfl
@[simp] theorem State.setAsm_queue (a : Assembler) : (s.setAsm a).queue = s.queue := rfl
@[simp] theorem State.setAsm_arb (a : Assembler) : (s.setAsm a).arb = s.arb := rfl
@[simp] theorem State.setAsm_illegalOp (a : Assembler) : (s.setAsm a).illegalOp = s.illegalOp := rfl
@[simp] theorem State.setAsm_resetDone (a : Assembler) : (s.setAsm a).resetDone = s.resetDone := rfl
@[simp] theorem State.setAsm_response (a : Assembler) : (s.setAsm a).response = s.response := rfl
@[simp] theorem State.setAsm_faults (a : Assembler) : (s.setAsm a).faults = s.faults := rfl
@[simp] theorem State.setAsm_binding (a : Assembler) : (s.setAsm a).binding = s.binding := rfl
@[simp] theorem State.setAsm_pending (a : Assembler) : (s.setAsm a).pending = s.pending := rfl
@[simp] theorem State.setAsm_schedule (a : Assembler) : (s.setAsm a).schedule = s.schedule := rfl

@[simp] theorem State.setQueue_params (q : EventQueue) : (s.setQueue q).params = s.params := rfl
@[simp] theorem State.setQueue_asm (q : EventQueue) : (s.setQueue q).asm = s.asm := rfl
@[simp] theorem State.setQueue_rings (q : EventQueue) : (s.setQueue q).rings = s.rings := rfl
@[simp] theorem State.setQueue_queue (q : EventQueue) : (s.setQueue q).queue = q := rfl
@[simp] theorem State.setQueue_arb (q : EventQueue) : (s.setQueue q).arb = s.arb := rfl
@[simp] theorem State.setQueue_illegalOp (q : EventQueue) : (s.setQueue q).illegalOp = s.illegalOp := rfl
@[simp] theorem State.setQueue_resetDone (q : EventQueue) : (s.setQueue q).resetDone = s.resetDone := rfl
@[simp] theorem State.setQueue_response (q : EventQueue) : (s.setQueue q).response = s.response := rfl
@[simp] theorem State.setQueue_faults (q : EventQueue) : (s.setQueue q).faults = s.faults := rfl
@[simp] theorem State.setQueue_binding (q : EventQueue) : (s.setQueue q).binding = s.binding := rfl
@[simp] theorem State.setQueue_pending (q : EventQueue) : (s.setQueue q).pending = s.pending := rfl
@[simp] theorem State.setQueue_schedule (q : EventQueue) : (s.setQueue q).schedule = s.schedule := rfl

@[simp] theorem State.setArb_params (a : Arbiter) : (s.setArb a).params = s.params := rfl
@[simp] theorem State.setArb_asm (a : Arbiter) : (s.setArb a).asm = s.asm := rfl
@[simp] theorem State.setArb_rings (a : Arbiter) : (s.setArb a).rings = s.rings := rfl
@[simp] theorem State.setArb_queue (a : Arbiter) : (s.setArb a).queue = s.queue := rfl
@[simp] theorem State.setArb_arb (a : Arbiter) : (s.setArb a).arb = a := rfl
@[simp] theorem State.setArb_illegalOp (a : Arbiter) : (s.setArb a).illegalOp = s.illegalOp := rfl
@[simp] theorem State.setArb_resetDone (a : Arbiter) : (s.setArb a).resetDone = s.resetDone := rfl
@[simp] theorem State.setArb_response (a : Arbiter) : (s.setArb a).response = s.response := rfl
@[simp] theorem State.setArb_faults (a : Arbiter) : (s.setArb a).faults = s.faults := rfl
@[simp] theorem State.setArb_binding (a : Arbiter) : (s.setArb a).binding = s.binding := rfl
@[simp] theorem State.setArb_pending (a : Arbiter) : (s.setArb a).pending = s.pending := rfl
@[simp] theorem State.setArb_schedule (a : Arbiter) : (s.setArb a).schedule = s.schedule := rfl

@[simp] theorem State.setIllegalOp_params (b : Bool) : (s.setIllegalOp b).params = s.params := rfl
@[simp] theorem State.setIllegalOp_asm (b : Bool) : (s.setIllegalOp b).asm = s.asm := rfl
@[simp] theorem State.setIllegalOp_rings (b : Bool) : (s.setIllegalOp b).rings = s.rings := rfl
@[simp] theorem State.setIllegalOp_queue (b : Bool) : (s.setIllegalOp b).queue = s.queue := rfl
@[simp] theorem State.setIllegalOp_arb (b : Bool) : (s.setIllegalOp b).arb = s.arb := rfl
@[simp] theorem State.setIllegalOp_illegalOp (b : Bool) : (s.setIllegalOp b).illegalOp = b := rfl
@[simp] theorem State.setIllegalOp_resetDone (b : Bool) : (s.setIllegalOp b).resetDone = s.resetDone := rfl
@[simp] theorem State.setIllegalOp_response (b : Bool) : (s.setIllegalOp b).response = s.response := rfl
@[simp] theorem State.setIllegalOp_faults (b : Bool) : (s.setIllegalOp b).faults = s.faults := rfl
@[simp] theorem State.setIllegalOp_binding (b : Bool) : (s.setIllegalOp b).binding = s.binding := rfl
@[simp] theorem State.setIllegalOp_pending (b : Bool) : (s.setIllegalOp b).pending = s.pending := rfl
@[simp] theorem State.setIllegalOp_schedule (b : Bool) : (s.setIllegalOp b).schedule = s.schedule := rfl

@[simp] theorem State.setFaults_params (f : List FaultCode) : (s.setFaults f).params = s.params := rfl
@[simp] theorem State.setFaults_asm (f : List FaultCode) : (s.setFaults f).asm = s.asm := rfl
@[simp] theorem State.setFaults_rings (f : List FaultCode) : (s.setFaults f).rings = s.rings := rfl
@[simp] theorem State.setFaults_queue (f : List FaultCode) : (s.setFaults f).queue = s.queue := rfl
@[simp] theorem State.setFaults_arb (f : List FaultCode) : (s.setFaults f).arb = s.arb := rfl
@[simp] theorem State.setFaults_illegalOp (f : List FaultCode) : (s.setFaults f).illegalOp = s.illegalOp := rfl
@[simp] theorem State.setFaults_resetDone (f : List FaultCode) : (s.setFaults f).resetDone = s.resetDone := rfl
@[simp] theorem State.setFaults_response (f : List FaultCode) : (s.setFaults f).response = s.response := rfl
@[simp] theorem State.setFaults_faults (f : List FaultCode) : (s.setFaults f).faults = f := rfl
@[simp] theorem State.setFaults_binding (f : List FaultCode) : (s.setFaults f).binding = s.binding := rfl
@[simp] theorem State.setFaults_pending (f : List FaultCode) : (s.setFaults f).pending = s.pending := rfl
@[simp] theorem State.setFaults_schedule (f : List FaultCode) : (s.setFaults f).schedule = s.schedule := rfl

@[simp] theorem State.setPending_params (p : List Pending) : (s.setPending p).params = s.params := rfl
@[simp] theorem State.setPending_asm (p : List Pending) : (s.setPending p).asm = s.asm := rfl
@[simp] theorem State.setPending_rings (p : List Pending) : (s.setPending p).rings = s.rings := rfl
@[simp] theorem State.setPending_queue (p : List Pending) : (s.setPending p).queue = s.queue := rfl
@[simp] theorem State.setPending_arb (p : List Pending) : (s.setPending p).arb = s.arb := rfl
@[simp] theorem State.setPending_illegalOp (p : List Pending) : (s.setPending p).illegalOp = s.illegalOp := rfl
@[simp] theorem State.setPending_resetDone (p : List Pending) : (s.setPending p).resetDone = s.resetDone := rfl
@[simp] theorem State.setPending_response (p : List Pending) : (s.setPending p).response = s.response := rfl
@[simp] theorem State.setPending_faults (p : List Pending) : (s.setPending p).faults = s.faults := rfl
@[simp] theorem State.setPending_binding (p : List Pending) : (s.setPending p).binding = s.binding := rfl
@[simp] theorem State.setPending_pending (p : List Pending) : (s.setPending p).pending = p := rfl
@[simp] theorem State.setPending_schedule (p : List Pending) : (s.setPending p).schedule = s.schedule := rfl

@[simp] theorem State.setSchedule_params (t : List Turn) : (s.setSchedule t).params = s.params := rfl
@[simp] theorem State.setSchedule_asm (t : List Turn) : (s.setSchedule t).asm = s.asm := rfl
@[simp] theorem State.setSchedule_rings (t : List Turn) : (s.setSchedule t).rings = s.rings := rfl
@[simp] theorem State.setSchedule_queue (t : List Turn) : (s.setSchedule t).queue = s.queue := rfl
@[simp] theorem State.setSchedule_arb (t : List Turn) : (s.setSchedule t).arb = s.arb := rfl
@[simp] theorem State.setSchedule_illegalOp (t : List Turn) : (s.setSchedule t).illegalOp = s.illegalOp := rfl
@[simp] theorem State.setSchedule_resetDone (t : List Turn) : (s.setSchedule t).resetDone = s.resetDone := rfl
@[simp] theorem State.setSchedule_response (t : List Turn) : (s.setSchedule t).response = s.response := rfl
@[simp] theorem State.setSchedule_faults (t : List Turn) : (s.setSchedule t).faults = s.faults := rfl
@[simp] theorem State.setSchedule_binding (t : List Turn) : (s.setSchedule t).binding = s.binding := rfl
@[simp] theorem State.setSchedule_pending (t : List Turn) : (s.setSchedule t).pending = s.pending := rfl
@[simp] theorem State.setSchedule_schedule (t : List Turn) : (s.setSchedule t).schedule = t := rfl

@[simp] theorem State.respond_params (r : Response) : (s.respond r).params = s.params := rfl
@[simp] theorem State.respond_asm (r : Response) : (s.respond r).asm = s.asm := rfl
@[simp] theorem State.respond_rings (r : Response) : (s.respond r).rings = s.rings := rfl
@[simp] theorem State.respond_queue (r : Response) : (s.respond r).queue = s.queue := rfl
@[simp] theorem State.respond_arb (r : Response) : (s.respond r).arb = s.arb := rfl
@[simp] theorem State.respond_illegalOp (r : Response) : (s.respond r).illegalOp = s.illegalOp := rfl
@[simp] theorem State.respond_resetDone (r : Response) : (s.respond r).resetDone = s.resetDone := rfl
@[simp] theorem State.respond_response (r : Response) : (s.respond r).response = r := rfl
@[simp] theorem State.respond_faults (r : Response) : (s.respond r).faults = s.faults := rfl
@[simp] theorem State.respond_binding (r : Response) : (s.respond r).binding = s.binding := rfl
@[simp] theorem State.respond_pending (r : Response) : (s.respond r).pending = s.pending := rfl
@[simp] theorem State.respond_schedule (r : Response) : (s.respond r).schedule = s.schedule := rfl

@[simp] theorem State.setRing_params (i : Nat) (r : Ring) : (s.setRing i r).params = s.params := rfl
@[simp] theorem State.setRing_asm (i : Nat) (r : Ring) : (s.setRing i r).asm = s.asm := rfl
@[simp] theorem State.setRing_rings (i : Nat) (r : Ring) : (s.setRing i r).rings = s.rings.set i r := rfl
@[simp] theorem State.setRing_queue (i : Nat) (r : Ring) : (s.setRing i r).queue = s.queue := rfl
@[simp] theorem State.setRing_arb (i : Nat) (r : Ring) : (s.setRing i r).arb = s.arb := rfl
@[simp] theorem State.setRing_illegalOp (i : Nat) (r : Ring) : (s.setRing i r).illegalOp = s.illegalOp := rfl
@[simp] theorem State.setRing_resetDone (i : Nat) (r : Ring) : (s.setRing i r).resetDone = s.resetDone := rfl
@[simp] theorem State.setRing_response (i : Nat) (r : Ring) : (s.setRing i r).response = s.response := rfl
@[simp] theorem State.setRing_faults (i : Nat) (r : Ring) : (s.setRing i r).faults = s.faults := rfl
@[simp] theorem State.setRing_binding (i : Nat) (r : Ring) : (s.setRing i r).binding = s.binding := rfl
@[simp] theorem State.setRing_pending (i : Nat) (r : Ring) : (s.setRing i r).pending = s.pending := rfl
@[simp] theorem State.setRing_schedule (i : Nat) (r : Ring) : (s.setRing i r).schedule = s.schedule := rfl

@[simp] theorem blockReset_params : (blockReset s).params = s.params := rfl
@[simp] theorem blockReset_asm : (blockReset s).asm = .reset := rfl
@[simp] theorem blockReset_rings : (blockReset s).rings = List.replicate s.params.numRb .reset := rfl
@[simp] theorem blockReset_queue : (blockReset s).queue = .reset := rfl
@[simp] theorem blockReset_arb : (blockReset s).arb = .reset := rfl
@[simp] theorem blockReset_illegalOp : (blockReset s).illegalOp = false := rfl
@[simp] theorem blockReset_resetDone : (blockReset s).resetDone = true := rfl
@[simp] theorem blockReset_response : (blockReset s).response = {} := rfl
@[simp] theorem blockReset_faults : (blockReset s).faults = s.faults := rfl
@[simp] theorem blockReset_binding : (blockReset s).binding = s.binding := rfl
@[simp] theorem blockReset_pending : (blockReset s).pending = s.pending := rfl
@[simp] theorem blockReset_schedule : (blockReset s).schedule = s.schedule := rfl

/-! One ring -/

theorem State.ring_eq_getElem {s : State} {i : Nat} (h : i < s.rings.length) : s.ring i = s.rings[i] := by
  simp [State.ring, h]

theorem State.ring_mem {s : State} {i : Nat} (h : i < s.rings.length) : s.ring i ∈ s.rings := by
  rw [State.ring_eq_getElem h]
  exact List.getElem_mem h

theorem State.ring_setRing_same {s : State} {i : Nat} (r : Ring) (h : i < s.rings.length) : (s.setRing i r).ring i = r := by
  simp [State.ring, State.setRing, h]

theorem State.ring_setRing_other {s : State} {i j : Nat} (r : Ring) (h : j ≠ i) : (s.setRing i r).ring j = s.ring j := by
  simp [State.ring, State.setRing, h.symm]

/-- A ring of the updated state is the new one or an old one. -/
theorem State.mem_setRing {s : State} {i : Nat} {r x : Ring} (h : x ∈ (s.setRing i r).rings) : x = r ∨ x ∈ s.rings :=
  (List.mem_or_eq_of_mem_set h).symm

@[simp] theorem State.setAsm_ring (a : Assembler) (i : Nat) : (s.setAsm a).ring i = s.ring i := rfl
@[simp] theorem State.setQueue_ring (q : EventQueue) (i : Nat) : (s.setQueue q).ring i = s.ring i := rfl
@[simp] theorem State.setArb_ring (a : Arbiter) (i : Nat) : (s.setArb a).ring i = s.ring i := rfl
@[simp] theorem State.setIllegalOp_ring (b : Bool) (i : Nat) : (s.setIllegalOp b).ring i = s.ring i := rfl
@[simp] theorem State.setFaults_ring (f : List FaultCode) (i : Nat) : (s.setFaults f).ring i = s.ring i := rfl
@[simp] theorem State.setPending_ring (p : List Pending) (i : Nat) : (s.setPending p).ring i = s.ring i := rfl
@[simp] theorem State.setSchedule_ring (t : List Turn) (i : Nat) : (s.setSchedule t).ring i = s.ring i := rfl
@[simp] theorem State.respond_ring (r : Response) (i : Nat) : (s.respond r).ring i = s.ring i := rfl

theorem blockReset_ring (i : Nat) : (blockReset s).ring i = .reset := by
  by_cases h : i < s.params.numRb <;> simp [State.ring, blockReset, h]

/-! Taking a fault -/

@[simp] theorem raise_params (f : BlockFault) : (raise f s).params = s.params := by cases f <;> rfl
@[simp] theorem raise_asm (f : BlockFault) : (raise f s).asm = s.asm := by cases f <;> rfl
@[simp] theorem raise_arb (f : BlockFault) : (raise f s).arb = s.arb := by cases f <;> rfl
@[simp] theorem raise_resetDone (f : BlockFault) : (raise f s).resetDone = s.resetDone := by cases f <;> rfl
@[simp] theorem raise_response (f : BlockFault) : (raise f s).response = s.response := by cases f <;> rfl
@[simp] theorem raise_binding (f : BlockFault) : (raise f s).binding = s.binding := by cases f <;> rfl
@[simp] theorem raise_pending (f : BlockFault) : (raise f s).pending = s.pending := by cases f <;> rfl
@[simp] theorem raise_schedule (f : BlockFault) : (raise f s).schedule = s.schedule := by cases f <;> rfl
@[simp] theorem raise_faults (f : BlockFault) : (raise f s).faults = insertFault f.code s.faults := by cases f <;> rfl
@[simp] theorem raise_rings_length (f : BlockFault) : (raise f s).rings.length = s.rings.length := by
  cases f <;> simp [raise, State.setFlag, State.setRbFault]

@[simp] theorem reject_params (f : BlockFault) : (reject f s).params = s.params := by cases f <;> rfl
@[simp] theorem reject_asm (f : BlockFault) : (reject f s).asm = s.asm := by cases f <;> rfl
@[simp] theorem reject_arb (f : BlockFault) : (reject f s).arb = s.arb := by cases f <;> rfl
@[simp] theorem reject_resetDone (f : BlockFault) : (reject f s).resetDone = s.resetDone := by cases f <;> rfl
@[simp] theorem reject_binding (f : BlockFault) : (reject f s).binding = s.binding := by cases f <;> rfl
@[simp] theorem reject_pending (f : BlockFault) : (reject f s).pending = s.pending := by cases f <;> rfl
@[simp] theorem reject_schedule (f : BlockFault) : (reject f s).schedule = s.schedule := by cases f <;> rfl
@[simp] theorem reject_response (f : BlockFault) : (reject f s).response = Response.fault := rfl
@[simp] theorem reject_faults (f : BlockFault) : (reject f s).faults = insertFault f.code s.faults := by cases f <;> rfl

end Sys2Proof.Machine
end

