-- ==== Sys2Proof/Laws/Positions.lean ====
section
/-! SUPPORT. Position arithmetic, and a run of values kept between two positions of a circular store. -/

namespace Sys2Proof.Machine

/-- The difference of two positions in range. -/
theorem modSub_eq {a b : Pos} {m : Nat} (ha : a.toNat < m) (hb : b.toNat < m) :
    modSub a b m = if b.toNat ≤ a.toNat then a.toNat - b.toNat else m + a.toNat - b.toNat := by
  unfold modSub
  split
  · rw [Int.emod_eq_of_lt (by omega) (by omega)]
    omega
  · rw [← Int.add_emod_right, Int.emod_eq_of_lt (by omega) (by omega)]
    omega

theorem modSub_lt {a b : Pos} {m : Nat} (ha : a.toNat < m) (hb : b.toNat < m) : modSub a b m < m := by
  rw [modSub_eq ha hb]
  split <;> omega

/-- Advancing a position, as a natural. -/
theorem modAdd_toNat {p : Pos} {k m : Nat} (hm : 0 < m) (hm' : m ≤ 65536) : (modAdd p k m).toNat = (p.toNat + k) % m := by
  have := Nat.mod_lt (p.toNat + k) hm
  simp [modAdd]
  omega

theorem modAdd_lt {p : Pos} {k m : Nat} (hm : 0 < m) (hm' : m ≤ 65536) : (modAdd p k m).toNat < m := by
  rw [modAdd_toNat hm hm']
  exact Nat.mod_lt _ hm

/-- Reduction of a sum that wraps at most once. -/
theorem add_mod_once {a k m : Nat} (ha : a < m) (hk : k ≤ m) : (a + k) % m = if a + k < m then a + k else a + k - m := by
  split
  · exact Nat.mod_eq_of_lt ‹_›
  · rw [Nat.mod_eq_sub_mod (by omega), Nat.mod_eq_of_lt (by omega)]

/-- The write position stands the count of values after the read position. -/
theorem add_modSub {a b : Pos} {m : Nat} (ha : a.toNat < m) (hb : b.toNat < m) :
    (b.toNat + modSub a b m) % m = a.toNat := by
  rw [modSub_eq ha hb]
  split
  · rw [add_mod_once hb (by omega)]
    split <;> omega
  · rw [add_mod_once hb (by omega)]
    split <;> omega

/-- Advancing the far position by `k` adds `k` to the difference, while it stays below the modulus. -/
theorem modSub_advance_far {a b : Pos} {m k : Nat} (ha : a.toNat < m) (hb : b.toNat < m) (hm : m ≤ 65536)
    (hk : modSub a b m + k < m) : modSub (modAdd a k m) b m = modSub a b m + k := by
  have h := modAdd_toNat (p := a) (k := k) (by omega) hm
  rw [add_mod_once ha (by omega)] at h
  have e := modSub_eq (modAdd_lt (p := a) (k := k) (by omega) hm) hb
  have e' := modSub_eq ha hb
  split at h <;> split at e <;> split at e' <;> omega

/-- Advancing the near position by `k` takes `k` off the difference. -/
theorem modSub_advance_near {a b : Pos} {m k : Nat} (ha : a.toNat < m) (hb : b.toNat < m) (hm : m ≤ 65536)
    (hk : k ≤ modSub a b m) : modSub a (modAdd b k m) m = modSub a b m - k := by
  have hlt := modSub_lt ha hb
  have h := modAdd_toNat (p := b) (k := k) (by omega) hm
  rw [add_mod_once hb (by omega)] at h
  have e := modSub_eq ha (modAdd_lt (p := b) (k := k) (by omega) hm)
  have e' := modSub_eq ha hb
  split at h <;> split at e <;> split at e' <;> omega

theorem modSub_self (a : Pos) (m : Nat) : modSub a a m = 0 := by simp [modSub]

theorem modSub_eq_zero {a b : Pos} {m : Nat} (ha : a.toNat < m) (hb : b.toNat < m) : modSub a b m = 0 ↔ b = a := by
  constructor
  · intro h
    rw [modSub_eq ha hb] at h
    apply BitVec.eq_of_toNat_eq
    split at h <;> omega
  · rintro rfl
    exact modSub_self _ _

/-! Values between two positions -/

variable {α : Type} {m : Memory α} {size r n : Nat} {xs vs : List α}

/-- A run of writes after the values held leaves each of them. -/
theorem read_writeCells_before {j : Nat} (hn : n + vs.length ≤ size) (hj : j < n) :
    Memory.read (writeCells size m (r + n) vs) ((r + j) % size) = Memory.read m ((r + j) % size) := by
  refine read_writeCells_outside fun i hi heq => ?_
  rw [Nat.add_assoc] at heq
  have := add_mod_inj (by omega) (by omega) heq
  omega

/-- Values written after the values held are read after them. -/
theorem readCells_writeCells_append (hn : n + vs.length ≤ size) (h : readCells size m r n = some xs) :
    readCells size (writeCells size m (r + n) vs) r (n + vs.length) = some (xs ++ vs) := by
  refine readCells_add ?_ ?_
  · rw [← h]
    exact readCells_congr fun j hj => read_writeCells_before hn hj
  · exact readCells_eq_some fun j hj => read_writeCells_inside (by omega) hj

/-- The readable run grows by the values written after it. -/
theorem readable_writeCells (hn : n + vs.length ≤ size)
    (h : ∀ j, j < n → (Memory.read m ((r + j) % size)).isSome = true) :
    ∀ j, j < n + vs.length → (Memory.read (writeCells size m (r + n) vs) ((r + j) % size)).isSome = true := by
  intro j hj
  by_cases hjn : j < n
  · rw [read_writeCells_before hn hjn]
    exact h j hjn
  · have := read_writeCells_inside (m := m) (p := r + n) (j := j - n) (vs := vs) (size := size) (by omega) (by omega)
    rw [show r + n + (j - n) = r + j by omega] at this
    rw [this]
    rfl

end Sys2Proof.Machine
end

