-- ==== Sys2Proof/Laws/Ring.lean ====
section
/-! SUPPORT. What the ring's shared operations do to its counts, its contents and its invariant (R87, R96, R100). -/

namespace Sys2Proof.Machine

variable {p : Params} {r : Ring}

theorem toread_lt (h : r.Inv p) : toread p r < p.rbCapacity := modSub_lt h.write_lt h.read_lt

theorem toread_empty (h : r.Inv p) : toread p r = 0 ↔ r.readPos = r.writePos := modSub_eq_zero h.write_lt h.read_lt

theorem writePos_eq (h : r.Inv p) : (r.readPos.toNat + toread p r) % p.rbCapacity = r.writePos.toNat :=
  add_modSub h.write_lt h.read_lt

theorem readRun_le_toread (h : r.Inv p) : readRun p r ≤ toread p r := by
  rw [toread, modSub_eq h.write_lt h.read_lt, readRun]
  split <;> omega

theorem writeRun_le_towrite (h : r.Inv p) : writeRun p r ≤ towrite p r := by
  have := h.read_lt
  have := h.write_lt
  rw [towrite, toread, modSub_eq h.write_lt h.read_lt, writeRun]
  repeat' split
  all_goals omega

/-- The write window never wraps (R93 (c)). -/
theorem writeRun_le_end (h : r.Inv p) : r.writePos.toNat + writeRun p r ≤ p.rbCapacity := by
  have := h.read_lt
  have := h.write_lt
  rw [writeRun]
  split
  · omega
  · split <;> omega

/-! Reading -/

theorem ringBytes_isSome (h : r.Inv p) {k : Nat} (hk : k ≤ toread p r) : (ringBytes p r k).isSome = true :=
  readCells_isSome.mpr fun j hj => h.readable j (by omega)

theorem ringBytes_contents (h : r.Inv p) : ringBytes p r (toread p r) = some (ringContents p r) := by
  obtain ⟨bs, hbs⟩ := Option.isSome_iff_exists.mp (ringBytes_isSome h (Nat.le_refl _))
  rw [ringContents, hbs]
  rfl

theorem ringContents_length (h : r.Inv p) : (ringContents p r).length = toread p r :=
  readCells_length (ringBytes_contents h)

/-- Reading `k` held bytes gives the oldest `k`. -/
theorem ringBytes_eq (h : r.Inv p) {k : Nat} (hk : k ≤ toread p r) : ringBytes p r k = some ((ringContents p r).take k) :=
  readCells_take (ringBytes_contents h) hk

/-! Writing -/

@[simp] theorem ringPut_readPos (bs : List Byte) : (ringPut p r bs).readPos = r.readPos := rfl
@[simp] theorem ringPut_writeLock (bs : List Byte) : (ringPut p r bs).writeLock = r.writeLock := rfl
@[simp] theorem ringPut_rbFault (bs : List Byte) : (ringPut p r bs).rbFault = r.rbFault := rfl
@[simp] theorem ringPut_writePos (bs : List Byte) : (ringPut p r bs).writePos = modAdd r.writePos bs.length p.rbCapacity := rfl
@[simp] theorem ringPut_storage (bs : List Byte) :
    (ringPut p r bs).storage = writeCells p.rbCapacity r.storage r.writePos.toNat bs := rfl

theorem ringPut_storage_eq (h : r.Inv p) (bs : List Byte) :
    (ringPut p r bs).storage = writeCells p.rbCapacity r.storage (r.readPos.toNat + toread p r) bs := by
  rw [← writeCells_mod (p := r.readPos.toNat + toread p r), writePos_eq h]
  rfl

theorem toread_ringPut (hp : p.WF) (h : r.Inv p) {bs : List Byte} (hlen : bs.length ≤ towrite p r) :
    toread p (ringPut p r bs) = toread p r + bs.length := by
  have hlt := toread_lt h
  exact modSub_advance_far h.write_lt h.read_lt hp.1.2 (by rw [towrite] at hlen; change toread p r + _ < _; omega)

/-- Bytes written come after the bytes held. -/
theorem ringContents_ringPut (hp : p.WF) (h : r.Inv p) {bs : List Byte} (hlen : bs.length ≤ towrite p r) :
    ringContents p (ringPut p r bs) = ringContents p r ++ bs := by
  have hlt := toread_lt h
  have := readCells_writeCells_append (vs := bs) (by rw [towrite] at hlen; omega) (ringBytes_contents h)
  rw [ringContents, ringBytes, toread_ringPut hp h hlen, ringPut_readPos, ringPut_storage_eq h, this]
  rfl

theorem ringPut_inv (hp : p.WF) (h : r.Inv p) {bs : List Byte} (hlen : bs.length ≤ towrite p r) : (ringPut p r bs).Inv p := by
  have hlt := toread_lt h
  have hc : 0 < p.rbCapacity := by omega
  refine ⟨h.read_lt, modAdd_lt hc hp.1.2, writeCells_wf h.storage_wf _ _ _, fun c hcm => ?_, fun j hj => ?_⟩
  · rcases mem_writeCells hc hcm with ⟨h1, -⟩ | h1
    · exact h1
    · exact h.storage_lt c h1
  · rw [toread_ringPut hp h hlen] at hj
    rw [ringPut_storage_eq h]
    exact readable_writeCells (by rw [towrite] at hlen; omega) h.readable j hj

/-! Advancing the read position -/

/-- The ring with `read_pos` advanced, before reset-on-empty. -/
theorem advance_inv (hp : p.WF) (h : r.Inv p) {k : Nat} (hk : k ≤ toread p r) :
    ({ r with readPos := modAdd r.readPos k p.rbCapacity } : Ring).Inv p := by
  have hlt := toread_lt h
  have hc : 0 < p.rbCapacity := by omega
  refine ⟨modAdd_lt hc hp.1.2, h.write_lt, h.storage_wf, h.storage_lt, fun j hj => ?_⟩
  have ht : toread p { r with readPos := modAdd r.readPos k p.rbCapacity } = toread p r - k :=
    modSub_advance_near h.write_lt h.read_lt hp.1.2 hk
  rw [ht] at hj
  simp only [modAdd_toNat hc hp.1.2, Nat.mod_add_mod, Nat.add_assoc]
  exact h.readable (k + j) (by omega)

theorem toread_advance (hp : p.WF) (h : r.Inv p) {k : Nat} (hk : k ≤ toread p r) :
    toread p { r with readPos := modAdd r.readPos k p.rbCapacity } = toread p r - k :=
  modSub_advance_near h.write_lt h.read_lt hp.1.2 hk

theorem ringContents_advance (hp : p.WF) (h : r.Inv p) {k : Nat} (hk : k ≤ toread p r) :
    ringContents p { r with readPos := modAdd r.readPos k p.rbCapacity } = (ringContents p r).drop k := by
  have hlt := toread_lt h
  have := readCells_drop (ringBytes_contents h) hk
  rw [ringContents, ringBytes, toread_advance hp h hk]
  simp only [modAdd_toNat (show 0 < p.rbCapacity by omega) hp.1.2, readCells_mod, this]
  rfl

@[simp] theorem resetOnEmpty_storage : (resetOnEmpty p r).storage = r.storage := by unfold resetOnEmpty; split <;> rfl
@[simp] theorem resetOnEmpty_writeLock : (resetOnEmpty p r).writeLock = r.writeLock := by unfold resetOnEmpty; split <;> rfl
@[simp] theorem resetOnEmpty_rbFault : (resetOnEmpty p r).rbFault = r.rbFault := by unfold resetOnEmpty; split <;> rfl

/-- Reset-on-empty changes no count (R96). -/
@[simp] theorem toread_resetOnEmpty : toread p (resetOnEmpty p r) = toread p r := by
  unfold resetOnEmpty
  split
  · next h => simp [toread, h.2.1, modSub_self]
  · rfl

/-- Either nothing changes, or the ring is empty and both positions become 0. -/
theorem resetOnEmpty_cases : resetOnEmpty p r = r ∨
    (r.readPos = r.writePos ∧ r.writeLock = false ∧ resetOnEmpty p r = { r with readPos := 0, writePos := 0 }) := by
  unfold resetOnEmpty
  split
  · next h => exact .inr ⟨h.2.1, h.2.2, rfl⟩
  · exact .inl rfl

theorem resetOnEmpty_inv (h : r.Inv p) : (resetOnEmpty p r).Inv p := by
  have hr := h.read_lt
  rcases resetOnEmpty_cases (p := p) (r := r) with he | ⟨-, -, he⟩ <;> rw [he]
  · exact h
  · refine ⟨by simp; omega, by simp; omega, h.storage_wf, h.storage_lt, fun j hj => ?_⟩
    simp [toread, modSub_self] at hj

theorem ringContents_resetOnEmpty (h : r.Inv p) : ringContents p (resetOnEmpty p r) = ringContents p r := by
  rcases resetOnEmpty_cases (p := p) (r := r) with he | ⟨hpos, -, -⟩
  · rw [he]
  · have h0 : toread p r = 0 := (toread_empty h).mpr hpos
    rw [ringContents, ringContents, toread_resetOnEmpty, h0]
    rfl

theorem ringDrop_inv (hp : p.WF) (h : r.Inv p) {k : Nat} (hk : k ≤ toread p r) : (ringDrop p r k).Inv p :=
  resetOnEmpty_inv (advance_inv hp h hk)

theorem toread_ringDrop (hp : p.WF) (h : r.Inv p) {k : Nat} (hk : k ≤ toread p r) :
    toread p (ringDrop p r k) = toread p r - k := by
  rw [ringDrop, toread_resetOnEmpty, toread_advance hp h hk]

/-- Advancing `read_pos` by `k` takes the oldest `k` bytes away. -/
theorem ringContents_ringDrop (hp : p.WF) (h : r.Inv p) {k : Nat} (hk : k ≤ toread p r) :
    ringContents p (ringDrop p r k) = (ringContents p r).drop k := by
  rw [ringDrop, ringContents_resetOnEmpty (advance_inv hp h hk), ringContents_advance hp h hk]

@[simp] theorem ringDrop_storage (k : Nat) : (ringDrop p r k).storage = r.storage := by simp [ringDrop]
@[simp] theorem ringDrop_writeLock (k : Nat) : (ringDrop p r k).writeLock = r.writeLock := by simp [ringDrop]
@[simp] theorem ringDrop_rbFault (k : Nat) : (ringDrop p r k).rbFault = r.rbFault := by simp [ringDrop]

/-! Flags -/

/-- The invariant does not speak of the lock and the sticky flag. -/
theorem Ring.Inv.flags (h : r.Inv p) (l f : Bool) : ({ r with writeLock := l, rbFault := f } : Ring).Inv p :=
  ⟨h.read_lt, h.write_lt, h.storage_wf, h.storage_lt, h.readable⟩

theorem Ring.reset_inv (hp : p.WF) : Ring.reset.Inv p := by
  have := hp.1.1
  refine ⟨by simp [Ring.reset]; omega, by simp [Ring.reset]; omega, rfl, by simp [Ring.reset], fun j hj => ?_⟩
  simp [toread, Ring.reset, modSub_self] at hj

/-- A ring of a good state is good. -/
theorem State.RingsInv.ring {s : State} (h : s.RingsInv) {i : Nat} (hi : i < s.params.numRb) : (s.ring i).Inv s.params :=
  h.each _ (State.ring_mem (h.count ▸ hi))

/-- Replacing one ring by a good one keeps the rings good. -/
theorem State.RingsInv.setRing {s : State} (h : s.RingsInv) {x : Ring} (hx : x.Inv s.params) (i : Nat) :
    (s.setRing i x).RingsInv :=
  ⟨h.params, by simpa using h.count, fun y hy => by
    rcases State.mem_setRing hy with rfl | hy
    · exact hx
    · exact h.each y hy⟩

end Sys2Proof.Machine
end

