-- ==== Sys2Proof/Laws/Exec.lean ====
section
/-! SUPPORT. What one operation can do, said once: to what stands outside the block, to each ring, to the queue, to the
assembler, and to the fault set. -/

namespace Sys2Proof.Machine

/-! The fault set -/

theorem mem_insertFault {c d : FaultCode} {fs : List FaultCode} : d ∈ insertFault c fs ↔ d = c ∨ d ∈ fs := by
  induction fs with
  | nil => simp [insertFault]
  | cons e es ih =>
    simp only [insertFault]
    split
    · next h => subst h; simp
    · split
      · simp
      · simp only [List.mem_cons, ih]
        exact or_left_comm

theorem number_injective {c d : FaultCode} (h : c.number = d.number) : c = d := by
  cases c <;> cases d <;> first | rfl | cases h

theorem insertFault_sorted {c : FaultCode} {fs : List FaultCode} (h : fs.Pairwise (fun a b => a.number < b.number)) :
    (insertFault c fs).Pairwise (fun a b => a.number < b.number) := by
  induction fs with
  | nil => simp [insertFault]
  | cons e es ih =>
    have ⟨h1, h2⟩ := List.pairwise_cons.mp h
    simp only [insertFault]
    split
    · exact h
    · next hne =>
      split
      · next hlt =>
        refine List.pairwise_cons.mpr ⟨fun x hx => ?_, h⟩
        rcases List.mem_cons.mp hx with rfl | hx
        · exact hlt
        · exact Nat.lt_trans hlt (h1 x hx)
      · next hlt =>
        refine List.pairwise_cons.mpr ⟨fun x hx => ?_, ih h2⟩
        rcases mem_insertFault.mp hx with rfl | hx
        · have : x.number ≠ e.number := fun h => hne (number_injective h)
          omega
        · exact h1 x hx

/-! The push and the emission -/

/-- What a push does (R103). -/
theorem push_cases (w : EventWord) (s : State) :
    (eventKind w = kindNone ∧ push w s = (raise .illegalOp s, false)) ∨
    (eventKind w ≠ kindNone ∧ eqCount s.params s.queue = s.params.eqDepth - 1 ∧ push w s = (raise .eqOverflow s, false)) ∨
    (eventKind w ≠ kindNone ∧ eqCount s.params s.queue ≠ s.params.eqDepth - 1 ∧
      push w s = (s.setQueue (queuePut s.params s.queue w), true)) := by
  unfold push
  split
  · exact .inl ⟨‹_›, rfl⟩
  · split
    · exact .inr (.inl ⟨‹_›, ‹_›, rfl⟩)
    · exact .inr (.inr ⟨‹_›, ‹_›, rfl⟩)

/-- The kind of an event word put together. -/
@[simp] theorem eventKind_eventWord (k : Byte) (x : Raw) : eventKind (eventWord k x) = k :=
  BitVec.extractLsb'_append_eq_left

/-- What an emission does (R84): the push cannot be of kind None. -/
theorem emit_cases (r : Raw) (s : State) :
    (eqCount s.params s.queue = s.params.eqDepth - 1 ∧
      emit r s = (raise .eqOverflow s).respond { emitted := true, raw := r, accepted := false }) ∨
    (eqCount s.params s.queue ≠ s.params.eqDepth - 1 ∧
      emit r s = (s.setQueue (queuePut s.params s.queue (eventWord kindMidi r))).respond
        { emitted := true, raw := r, accepted := true }) := by
  rcases push_cases (eventWord kindMidi r) s with ⟨h, -⟩ | ⟨-, h, e⟩ | ⟨-, h, e⟩
  · rw [eventKind_eventWord] at h
    exact absurd h (by decide)
  · exact .inl ⟨h, by rw [emit, e]⟩
  · exact .inr ⟨h, by rw [emit, e]⟩

/-! Bytes at `ASM.in` -/

theorem byteClass_data : ∀ v : BitVec 7, byteClass (0#1 ++ v) = .data := by decide

/-- A MIDI row does with its byte what `asmFeed` does. -/
theorem midiByte_eq (b : Byte) (act : State → State) (s : State)
    (h : ∀ t : State, t.asm.awaitingSysexEnd = false → asmFeed b t = act t) : midiByte b act s = .next (asmFeed b s) := by
  unfold midiByte
  split
  · next ha => simp [asmFeed, ha]
  · next ha => rw [h s (by simpa using ha)]

/-- Outside a bracket the byte's class decides. -/
theorem asmFeed_outside {b : Byte} {t : State} (h : t.asm.awaitingSysexEnd = false) :
    asmFeed b t = match byteClass b with
      | .sysexStart => asmSysexStart t
      | .cvStatus => asmStatus b t
      | .sysexEnd => asmStrayEnd t
      | .sysOneByte => asmOneByte b t
      | .data => asmData b t := by
  unfold asmFeed
  rw [h]
  rfl

/-- Every MIDI row, as the byte it stands for. -/
theorem exec_of_encode_midiByte {i : Instr} {b : Byte} (h : encode i = .midiByte b) (s : State) :
    exec i s = .next (asmFeed b s) := by
  have cv : ∀ k c : BitVec 4, 8 ≤ k.toNat → k.toNat < 15 → byteClass (k ++ c) = .cvStatus := by decide
  cases i <;> simp only [encode, Transaction.midiByte.injEq, reduceCtorEq] at h <;> subst h <;>
    refine midiByte_eq _ _ s fun t ht => ?_ <;> rw [asmFeed_outside ht]
  case midiData v => rw [byteClass_data]
  all_goals first | rfl | rw [cv _ _ (by decide) (by decide)]

theorem exec_asmFeed (b : Byte) (s : State) : exec (.asmFeed b) s = .next (asmFeed b s) := rfl

/-- Every operation on `ASM.in` brings a byte there. -/
theorem exec_asmIn {i : Instr} (h : i.port = .asmIn) : ∃ b, ∀ s, exec i s = .next (asmFeed b s) := by
  cases i
  case asmFeed b => exact ⟨b, exec_asmFeed b⟩
  all_goals first | exact ⟨_, exec_of_encode_midiByte rfl⟩ | cases h

/-! What an operation can do to the assembler -/

/-- The ways the assembler's fields can change: not at all, the bracket flag, a new command, or a data byte taken in, with
the command in flight or restarted. -/
inductive AsmStep (p : Params) (a : Assembler) : Assembler → Prop where
  | same : AsmStep p a a
  | bracket (f : Bool) : AsmStep p a { a with awaitingSysexEnd := f }
  | start (b : Byte) (n : BitVec 8) : byteClass b = .cvStatus → (n = 0 ∨ n = 1 ∨ n = 2) →
      (n = 0 ∨ n.toNat = lenOf p b) → AsmStep p a (startCommand a b n)
  | data (b : Byte) : byteClass b = .data → a.pendingLenRemaining ≠ 0 → AsmStep p a (takeData a b)
  | restart (b : Byte) (n : BitVec 8) : byteClass b = .data → byteClass a.pendingStatus = .cvStatus → (n = 1 ∨ n = 2) →
      n.toNat = lenOf p a.pendingStatus → AsmStep p a (takeData (startCommand a a.pendingStatus n) b)

@[simp] theorem emit_asm (r : Raw) (s : State) : (emit r s).asm = s.asm := by
  rcases emit_cases r s with ⟨-, e⟩ | ⟨-, e⟩ <;> rw [e] <;> simp

@[simp] theorem noEmission_asm (s : State) : (noEmission s).asm = s.asm := rfl

theorem asmAccept_asm (b : Byte) (s : State) : (asmAccept b s).asm = takeData s.asm b := by
  simp only [asmAccept]
  split <;> simp

theorem asmStatus_asm (b : Byte) (s : State) : ∃ n : BitVec 8, (n = 0 ∨ n = 1 ∨ n = 2) ∧
    (n = 0 ∨ n.toNat = lenOf s.params b) ∧ (asmStatus b s).asm = startCommand s.asm b n := by
  unfold asmStatus
  split
  · exact ⟨0, by simp, .inl rfl, by simp⟩
  · next h => exact ⟨1, by simp, .inr h.symm, by simp⟩
  · next h => exact ⟨2, by simp, .inr h.symm, by simp⟩
  · exact ⟨0, by simp, .inl rfl, by simp⟩

theorem canRestart_iff {p : Params} {a : Assembler} : canRestart p a = true ↔
    p.runningStatus = true ∧ byteClass a.pendingStatus = .cvStatus ∧
    (lenOf p a.pendingStatus = 1 ∨ lenOf p a.pendingStatus = 2) := by
  simp [canRestart, and_assoc]

/-- The length that running status reloads, as `pending_len_remaining` holds it (R80). -/
theorem restart_length {n : Nat} (h : n = 1 ∨ n = 2) :
    (BitVec.ofNat 8 n = 1 ∨ BitVec.ofNat 8 n = 2) ∧ (BitVec.ofNat 8 n).toNat = n := by
  rcases h with rfl | rfl <;> decide

theorem asmData_asm {b : Byte} {s : State} (hb : byteClass b = .data) : AsmStep s.params s.asm (asmData b s).asm := by
  unfold asmData
  split
  · split
    · next h =>
      obtain ⟨-, h1, h2⟩ := canRestart_iff.mp h
      rw [asmAccept_asm, State.setAsm_asm]
      obtain ⟨hn, hlen⟩ := restart_length h2
      exact .restart b _ hb h1 hn hlen
    · exact .same
  · next h =>
    rw [asmAccept_asm]
    exact .data b hb h

theorem asmFeed_asm (b : Byte) (s : State) : AsmStep s.params s.asm (asmFeed b s).asm := by
  unfold asmFeed
  split
  · unfold asmInBracket
    split
    · exact .bracket false
    · exact .same
  · split
    · exact .bracket true
    · next h =>
      obtain ⟨n, hn, hlen, e⟩ := asmStatus_asm b s
      rw [e]
      exact .start b n h hn hlen
    · exact .same
    · rw [asmOneByte, emit_asm]
      exact .same
    · next h => exact asmData_asm h

/-! What a byte can emit -/

/-- The commands that a byte at `ASM.in` can emit: a status of length 0, a one-byte system message, the command in flight
with its last data byte, or a restarted command of length 1. -/
inductive AsmEmission (p : Params) (a : Assembler) (b : Byte) : Raw → Prop where
  | status : byteClass b = .cvStatus → lenOf p b = 0 → AsmEmission p a b (zext24 b)
  | oneByte : byteClass b = .sysOneByte → AsmEmission p a b (zext24 b)
  | last : byteClass b = .data → a.pendingLenRemaining = 1 → AsmEmission p a b (takeData a b).accumulator
  | restart : byteClass b = .data → byteClass a.pendingStatus = .cvStatus → lenOf p a.pendingStatus = 1 →
      AsmEmission p a b (takeData (startCommand a a.pendingStatus 1) b).accumulator

@[simp] theorem emit_raw (r : Raw) (s : State) : (emit r s).response.raw = r := by
  rcases emit_cases r s with ⟨-, e⟩ | ⟨-, e⟩ <;> rw [e] <;> rfl

@[simp] theorem noEmission_emitted (s : State) : (noEmission s).response.emitted = false := rfl

/-- A data byte that is taken in emits the accumulator when it was the last, and nothing before. -/
theorem asmAccept_emitted {b : Byte} {s : State} (h : (asmAccept b s).response.emitted = true) :
    s.asm.pendingLenRemaining = 1 ∧ (asmAccept b s).response.raw = (takeData s.asm b).accumulator := by
  simp only [asmAccept] at h ⊢
  split at h
  · next h0 =>
    rw [if_pos h0, emit_raw]
    change s.asm.pendingLenRemaining - 1 = 0 at h0
    exact ⟨by bv_omega, rfl⟩
  · cases h

/-- Whatever a byte emits is one of those commands. -/
theorem asmFeed_emitted {b : Byte} {s : State} (h : (asmFeed b s).response.emitted = true) :
    AsmEmission s.params s.asm b (asmFeed b s).response.raw := by
  unfold asmFeed at h ⊢
  split at h
  · unfold asmInBracket at h
    split at h <;> cases h
  · next hb =>
    rw [if_neg hb]
    split at h
    · cases h
    · next hc =>
      unfold asmStatus at h ⊢
      split at h
      · next hl =>
        rw [emit_raw]
        exact .status hc hl
      all_goals cases h
    · cases h
    · next hc =>
      rw [asmOneByte, emit_raw]
      exact .oneByte hc
    · next hc =>
      unfold asmData at h ⊢
      split at h
      · next h0 =>
        split at h
        · next hr =>
          rw [if_pos h0, if_pos hr]
          obtain ⟨-, hs, hl⟩ := canRestart_iff.mp hr
          obtain ⟨h1, e⟩ := asmAccept_emitted h
          have h1 : BitVec.ofNat 8 (lenOf s.params s.asm.pendingStatus) = 1 := h1
          rw [e, State.setAsm_asm, h1]
          refine .restart hc hs ?_
          rw [← (restart_length hl).2, h1]
          rfl
        · cases h
      · next h0 =>
        rw [if_neg h0]
        obtain ⟨h1, e⟩ := asmAccept_emitted h
        rw [e]
        exact .last hc h1

/-! What an operation can do to the queue -/

/-- The ways the queue can change: not at all, a word stored, one of the three pops, a push-back, or one of its flags. -/
inductive QueueStep (p : Params) (q : EventQueue) : EventQueue → Prop where
  | same : QueueStep p q q
  | put (w : EventWord) : eventKind w ≠ kindNone → eqCount p q ≠ p.eqDepth - 1 → QueueStep p q (queuePut p q w)
  | popSlot : q.slotValid = true → QueueStep p q { q with slotValid := false, pbArmed := false }
  | popNone : q.slotValid = false → eqCount p q = 0 → QueueStep p q { q with pbArmed := false }
  | pop (w : EventWord) : q.slotValid = false → eqCount p q ≠ 0 → Memory.read q.entry q.rd.toNat = some w →
      QueueStep p q { q with rd := modAdd q.rd 1 p.eqDepth, last := w, pbArmed := true }
  | pushBack : q.pbArmed = true → QueueStep p q { q with slot := q.last, slotValid := true, pbArmed := false }
  | pbFault : q.pbArmed = false → QueueStep p q { q with pbFault := true }
  | overflow : eqCount p q = p.eqDepth - 1 → QueueStep p q { q with eqOverflow := true }

theorem push_queue (w : EventWord) (s : State) : QueueStep s.params s.queue (push w s).1.queue := by
  rcases push_cases w s with ⟨-, e⟩ | ⟨-, h, e⟩ | ⟨hk, h, e⟩ <;> rw [e]
  · exact .same
  · exact .overflow h
  · exact .put w hk h

/-- What a byte at `ASM.in` hands to the queue: nothing; a command that is stored; or one that a full queue refuses (R84). -/
inductive FeedPush (s t : State) : Prop where
  | silent : t.queue = s.queue → t.faults = s.faults → t.response = {} → FeedPush s t
  | stored (r : Raw) : eqCount s.params s.queue ≠ s.params.eqDepth - 1 →
      t.queue = queuePut s.params s.queue (eventWord kindMidi r) → t.faults = s.faults →
      t.response = { emitted := true, raw := r, accepted := true } → FeedPush s t
  | refused (r : Raw) : eqCount s.params s.queue = s.params.eqDepth - 1 →
      t.queue = { s.queue with eqOverflow := true } → t.faults = insertFault .eqOverflow s.faults →
      t.response = { emitted := true, raw := r, accepted := false } → FeedPush s t

theorem emit_feedPush (r : Raw) (s : State) (a : Assembler) : FeedPush s (emit r (s.setAsm a)) := by
  rcases emit_cases r (s.setAsm a) with ⟨h, e⟩ | ⟨h, e⟩ <;> rw [e]
  · exact .refused r h rfl (by simp [BlockFault.code]) rfl
  · exact .stored r h rfl rfl rfl

theorem noEmission_feedPush (s : State) (a : Assembler) : FeedPush s (noEmission (s.setAsm a)) := .silent rfl rfl rfl

theorem asmAccept_feedPush (b : Byte) (s : State) (a : Assembler) : FeedPush s (asmAccept b (s.setAsm a)) := by
  simp only [asmAccept]
  split
  · exact emit_feedPush _ s _
  · exact noEmission_feedPush s _

/-- Every byte at `ASM.in` does one of those. -/
theorem asmFeed_push (b : Byte) (s : State) : FeedPush s (asmFeed b s) := by
  unfold asmFeed
  split
  · unfold asmInBracket
    split <;> exact noEmission_feedPush s _
  · split
    · exact noEmission_feedPush s _
    · unfold asmStatus
      split
      · exact emit_feedPush _ s _
      all_goals exact noEmission_feedPush s _
    · exact noEmission_feedPush s s.asm
    · exact emit_feedPush _ s s.asm
    · unfold asmData
      split
      · split
        · exact asmAccept_feedPush b s _
        · exact noEmission_feedPush s s.asm
      · exact asmAccept_feedPush b s s.asm

theorem FeedPush.queue {s t : State} (h : FeedPush s t) : QueueStep s.params s.queue t.queue := by
  cases h with
  | silent hq => exact hq ▸ .same
  | stored r h hq => exact hq ▸ .put _ (by rw [eventKind_eventWord]; decide) h
  | refused r h hq => exact hq ▸ .overflow h

/-! What an operation can do to a ring -/

/-- The ways a ring can change: bytes stored, a window opened or closed, the oldest bytes dropped, or its flag. -/
inductive RingStep (p : Params) (r : Ring) : Ring → Prop where
  | put (bs : List Byte) : r.writeLock = false → bs.length ≤ towrite p r → RingStep p r (ringPut p r bs)
  | window : RingStep p r { r with writeLock := true }
  | commit (bs : List Byte) : r.writeLock = true → bs.length ≤ writeRun p r →
      RingStep p r { ringPut p r bs with writeLock := false }
  | drop (k : Nat) : k ≤ toread p r → RingStep p r (ringDrop p r k)
  | fault : RingStep p r { r with rbFault := true }

/-- One ring of the state changed in one of those ways. -/
def RingsStep (inst : Nat) (s t : State) : Prop :=
  inst < s.params.numRb ∧ ∃ r, t.rings = s.rings.set inst r ∧ RingStep s.params (s.ring inst) r

/-- What a next state of an operation with an instance operand comes from. -/
theorem withInstance_next {inst : Nat} {s t : State} {run : Ring → Result} (h : withInstance inst s run = .next t) :
    (inst < s.params.numRb ∧ run (s.ring inst) = .next t) ∨ (s.params.numRb ≤ inst ∧ t = reject .illegalOp s) := by
  unfold withInstance at h
  split at h
  · exact .inl ⟨‹_›, h⟩
  · cases h
    exact .inr ⟨by omega, rfl⟩

/-! The frame of a byte at `ASM.in`, and the inversions of `exec` -/

/-- An emission writes the queue, the fault set and the response. -/
theorem emit_frame (r : Raw) (s : State) :
    emit r s = { s with queue := (emit r s).queue, faults := (emit r s).faults, response := (emit r s).response } := by
  rcases emit_cases r s with ⟨-, e⟩ | ⟨-, e⟩ <;> rw [e] <;> rfl

/-- A byte at `ASM.in` writes the assembler, the queue, the fault set and the response. -/
theorem asmFeed_frame (b : Byte) (s : State) :
    asmFeed b s = { s with asm := (asmFeed b s).asm, queue := (asmFeed b s).queue, faults := (asmFeed b s).faults,
                           response := (asmFeed b s).response } := by
  have hacc : ∀ s : State, asmAccept b s =
      { s with asm := (asmAccept b s).asm, queue := (asmAccept b s).queue, faults := (asmAccept b s).faults,
               response := (asmAccept b s).response } := by
    intro s
    simp only [asmAccept]
    split
    · rw [emit_frame]; rfl
    · rfl
  unfold asmFeed
  split
  · unfold asmInBracket
    split <;> rfl
  · split
    · rfl
    · unfold asmStatus
      split
      · rw [emit_frame]; rfl
      all_goals rfl
    · rfl
    · unfold asmOneByte
      rw [emit_frame]
    · unfold asmData
      split
      · split
        · rw [hacc]; rfl
        · rfl
      · exact hacc s

/-- What stands outside the block is the same in both states. -/
structure SameHost (s t : State) : Prop where
  params : t.params = s.params
  binding : t.binding = s.binding
  pending : t.pending = s.pending
  schedule : t.schedule = s.schedule

theorem SameHost.refl (s : State) : SameHost s s := ⟨rfl, rfl, rfl, rfl⟩

theorem push_host (w : EventWord) (s : State) : SameHost s (push w s).1 := by
  rcases push_cases w s with ⟨-, e⟩ | ⟨-, -, e⟩ | ⟨-, -, e⟩ <;> rw [e] <;> constructor <;> simp

theorem reject_host (f : BlockFault) (s : State) : SameHost s (reject f s) := by constructor <;> simp

theorem asmFeed_host (b : Byte) (s : State) : SameHost s (asmFeed b s) := by
  rw [asmFeed_frame]
  exact ⟨rfl, rfl, rfl, rfl⟩

/-- ARB_SAMPLE's next state: nothing but the response, or the push with the pair stored when it is accepted. -/
theorem execArbSample_cases (usb bus : Bool) (s : State) :
    (usb = s.arb.prevUsb ∧ bus = s.arb.prevBus ∧
      execArbSample usb bus s = .next (s.respond { outcome := (classify usb bus).code })) ∨
    (¬ (usb = s.arb.prevUsb ∧ bus = s.arb.prevBus) ∧
      ((eqCount s.params s.queue ≠ s.params.eqDepth - 1 ∧ execArbSample usb bus s =
          .next (((s.setQueue (queuePut s.params s.queue (connectionEvent s.arb usb bus))).setArb
            { prevUsb := usb, prevBus := bus }).respond { outcome := (classify usb bus).code, pushed := true })) ∨
       (eqCount s.params s.queue = s.params.eqDepth - 1 ∧ execArbSample usb bus s =
          .next ((raise .eqOverflow s).respond { outcome := (classify usb bus).code })))) := by
  unfold execArbSample
  split
  · next h => exact .inl ⟨h.1, h.2, rfl⟩
  · next h =>
    refine .inr ⟨h, ?_⟩
    rcases push_cases (connectionEvent s.arb usb bus) s with ⟨hk, -⟩ | ⟨-, hq, e⟩ | ⟨-, hq, e⟩
    · rw [connectionEvent, eventKind_eventWord] at hk
      exact absurd hk (by decide)
    · exact .inr ⟨hq, by rw [e]⟩
    · exact .inl ⟨hq, by rw [e]⟩

/-- EQ_PUSH's next state. -/
theorem execEqPush_eq (w : EventWord) (s : State) :
    execEqPush w s = .next ((push w s).1.respond { ok := (push w s).2, faulted := !(push w s).2 }) := rfl

/-- EQ_POP's next state: from the slot, the None event, or the oldest entry. -/
theorem execEqPop_next {s t : State} (h : execEqPop s = .next t) :
    (s.queue.slotValid = true ∧
      t = (s.setQueue { s.queue with slotValid := false, pbArmed := false }).respond { word := s.queue.slot }) ∨
    (s.queue.slotValid = false ∧ eqCount s.params s.queue = 0 ∧
      t = (s.setQueue { s.queue with pbArmed := false }).respond {}) ∨
    (s.queue.slotValid = false ∧ eqCount s.params s.queue ≠ 0 ∧ ∃ w, Memory.read s.queue.entry s.queue.rd.toNat = some w ∧
      t = (s.setQueue { s.queue with rd := modAdd s.queue.rd 1 s.params.eqDepth, last := w, pbArmed := true }).respond
        { word := w }) := by
  simp only [execEqPop] at h
  split at h
  · next hv =>
    cases h
    exact .inl ⟨hv, rfl⟩
  · next hv =>
    split at h
    · next hc =>
      cases h
      exact .inr (.inl ⟨by simpa using hv, hc, rfl⟩)
    · next hc =>
      split at h
      · cases h
      · next w hw =>
        cases h
        exact .inr (.inr ⟨by simpa using hv, hc, w, hw, rfl⟩)

/-- EQ_PUSH_BACK's next state. -/
theorem execEqPushBack_next {s t : State} (h : execEqPushBack s = .next t) :
    (s.queue.pbArmed = true ∧
      t = (s.setQueue { s.queue with slot := s.queue.last, slotValid := true, pbArmed := false }).respond {}) ∨
    (s.queue.pbArmed = false ∧ t = reject .pushbackIllegal s) := by
  simp only [execEqPushBack] at h
  split at h
  · next ha =>
    cases h
    exact .inl ⟨ha, rfl⟩
  · next ha =>
    cases h
    exact .inr ⟨by simpa using ha, rfl⟩

/-- The next state of a RingBuffer operation, by operation and outcome. -/
inductive RingNext (s : State) : Instr → State → Prop where
  | illegal (i : Instr) (inst : Nat) : i.ringOf? = some inst → s.params.numRb ≤ inst → RingNext s i (reject .illegalOp s)
  | write (inst : Nat) (data : List Byte) : inst < s.params.numRb → (s.ring inst).writeLock = false →
      RingNext s (.rbWrite inst data)
        ((s.setRing inst (ringPut s.params (s.ring inst) (data.take (min data.length (towrite s.params (s.ring inst)))))).respond
          { written := min data.length (towrite s.params (s.ring inst)) })
  | writeLocked (inst : Nat) (data : List Byte) : inst < s.params.numRb → (s.ring inst).writeLock = true →
      RingNext s (.rbWrite inst data) (reject (.rbWriteWhileLocked inst) s)
  | window (inst : Nat) : inst < s.params.numRb →
      RingNext s (.rbGetWriteWindow inst)
        ((s.setRing inst { s.ring inst with writeLock := true }).respond
          { start := (s.ring inst).writePos.toNat, len := writeRun s.params (s.ring inst) })
  | commit (inst : Nat) (data : List Byte) : inst < s.params.numRb → (s.ring inst).writeLock = true →
      data.length ≤ writeRun s.params (s.ring inst) →
      RingNext s (.rbCommitWrite inst data)
        ((s.setRing inst { ringPut s.params (s.ring inst) data with writeLock := false }).respond { committed := data.length })
  | commitNotLocked (inst : Nat) (data : List Byte) : inst < s.params.numRb → (s.ring inst).writeLock = false →
      RingNext s (.rbCommitWrite inst data) (reject (.rbCommitNotLocked inst) s)
  | commitOversize (inst : Nat) (data : List Byte) : inst < s.params.numRb → (s.ring inst).writeLock = true →
      writeRun s.params (s.ring inst) < data.length →
      RingNext s (.rbCommitWrite inst data) (reject (.rbCommitOversize inst) s)
  | towrite (inst : Nat) : inst < s.params.numRb →
      RingNext s (.rbTowrite inst) (s.respond { count := towrite s.params (s.ring inst) })
  | read (inst : Nat) (n : Pos) (out : List Byte) : inst < s.params.numRb →
      ringBytes s.params (s.ring inst) (min n.toNat (toread s.params (s.ring inst))) = some out →
      RingNext s (.rbRead inst n)
        ((s.setRing inst (ringDrop s.params (s.ring inst) (min n.toNat (toread s.params (s.ring inst))))).respond { data := out })
  | peek (inst : Nat) (n : Pos) (out : List Byte) : inst < s.params.numRb →
      ringBytes s.params (s.ring inst) (min n.toNat (toread s.params (s.ring inst))) = some out →
      RingNext s (.rbPeek inst n) (s.respond { data := out })
  | readWindow (inst : Nat) (out : List Byte) : inst < s.params.numRb →
      ringBytes s.params (s.ring inst) (readRun s.params (s.ring inst)) = some out →
      RingNext s (.rbGetReadWindow inst)
        (s.respond { start := (s.ring inst).readPos.toNat, len := readRun s.params (s.ring inst), data := out })
  | consume (inst : Nat) (k : Pos) : inst < s.params.numRb → k.toNat ≤ toread s.params (s.ring inst) →
      RingNext s (.rbConsume inst k)
        ((s.setRing inst (ringDrop s.params (s.ring inst) k.toNat)).respond { consumed := k.toNat })
  | consumeOversize (inst : Nat) (k : Pos) : inst < s.params.numRb → toread s.params (s.ring inst) < k.toNat →
      RingNext s (.rbConsume inst k) (reject (.rbConsumeOversize inst) s)
  | toread (inst : Nat) : inst < s.params.numRb →
      RingNext s (.rbToread inst) (s.respond { count := toread s.params (s.ring inst) })
  | status (inst : Nat) : inst < s.params.numRb →
      RingNext s (.rbStatus inst) (s.respond { status8 := rbStatusWord (s.ring inst) })

/-- Every next state of a RingBuffer operation is one of those. -/
theorem exec_ringNext {i : Instr} {s t : State} (hr : i.ringOf? ≠ none) (h : exec i s = .next t) : RingNext s i t := by
  cases i <;> first | exact absurd rfl hr | skip
  case rbWrite inst data =>
    simp only [exec, execRbWrite] at h
    rcases withInstance_next h with ⟨hi, h⟩ | ⟨hi, rfl⟩
    · split at h
      · next hl => cases h; exact .writeLocked inst data hi hl
      · next hl => cases h; exact .write inst data hi (by simpa using hl)
    · exact .illegal _ inst rfl hi
  case rbGetWriteWindow inst =>
    simp only [exec, execRbGetWriteWindow] at h
    rcases withInstance_next h with ⟨hi, h⟩ | ⟨hi, rfl⟩
    · cases h; exact .window inst hi
    · exact .illegal _ inst rfl hi
  case rbCommitWrite inst data =>
    simp only [exec, execRbCommitWrite] at h
    rcases withInstance_next h with ⟨hi, h⟩ | ⟨hi, rfl⟩
    · split at h
      · next hl => cases h; exact .commitNotLocked inst data hi hl
      · next hl =>
        split at h
        · next hlen => cases h; exact .commitOversize inst data hi (by simpa using hl) hlen
        · next hlen => cases h; exact .commit inst data hi (by simpa using hl) (by omega)
    · exact .illegal _ inst rfl hi
  case rbTowrite inst =>
    simp only [exec, execRbTowrite] at h
    rcases withInstance_next h with ⟨hi, h⟩ | ⟨hi, rfl⟩
    · cases h; exact .towrite inst hi
    · exact .illegal _ inst rfl hi
  case rbRead inst n =>
    simp only [exec, execRbRead] at h
    rcases withInstance_next h with ⟨hi, h⟩ | ⟨hi, rfl⟩
    · split at h
      · cases h
      · next out ho => cases h; exact .read inst n out hi ho
    · exact .illegal _ inst rfl hi
  case rbPeek inst n =>
    simp only [exec, execRbPeek] at h
    rcases withInstance_next h with ⟨hi, h⟩ | ⟨hi, rfl⟩
    · split at h
      · cases h
      · next out ho => cases h; exact .peek inst n out hi ho
    · exact .illegal _ inst rfl hi
  case rbGetReadWindow inst =>
    simp only [exec, execRbGetReadWindow] at h
    rcases withInstance_next h with ⟨hi, h⟩ | ⟨hi, rfl⟩
    · split at h
      · cases h
      · next out ho => cases h; exact .readWindow inst out hi ho
    · exact .illegal _ inst rfl hi
  case rbConsume inst k =>
    simp only [exec, execRbConsume] at h
    rcases withInstance_next h with ⟨hi, h⟩ | ⟨hi, rfl⟩
    · split at h
      · next hk => cases h; exact .consumeOversize inst k hi hk
      · next hk => cases h; exact .consume inst k hi (by omega)
    · exact .illegal _ inst rfl hi
  case rbToread inst =>
    simp only [exec, execRbToread] at h
    rcases withInstance_next h with ⟨hi, h⟩ | ⟨hi, rfl⟩
    · cases h; exact .toread inst hi
    · exact .illegal _ inst rfl hi
  case rbStatus inst =>
    simp only [exec, execRbStatus] at h
    rcases withInstance_next h with ⟨hi, h⟩ | ⟨hi, rfl⟩
    · cases h; exact .status inst hi
    · exact .illegal _ inst rfl hi

/-- A RingBuffer operation changes at most its own ring, in one of the ways of `RingStep`. -/
theorem RingNext.rings {i : Instr} {s t : State} (h : RingNext s i t) :
    t.rings = s.rings ∨ ∃ inst, i.ringOf? = some inst ∧ RingsStep inst s t := by
  cases h with
  | illegal => exact .inl rfl
  | write inst data hi hl => exact .inr ⟨inst, rfl, hi, _, rfl, .put _ hl (by rw [List.length_take]; omega)⟩
  | writeLocked inst data hi hl => exact .inr ⟨inst, rfl, hi, _, rfl, .fault⟩
  | window inst hi => exact .inr ⟨inst, rfl, hi, _, rfl, .window⟩
  | commit inst data hi hl hlen => exact .inr ⟨inst, rfl, hi, _, rfl, .commit data hl hlen⟩
  | commitNotLocked inst data hi hl => exact .inr ⟨inst, rfl, hi, _, rfl, .fault⟩
  | commitOversize inst data hi hl hlen => exact .inr ⟨inst, rfl, hi, _, rfl, .fault⟩
  | towrite => exact .inl rfl
  | read inst n out hi ho => exact .inr ⟨inst, rfl, hi, _, rfl, .drop _ (by omega)⟩
  | peek => exact .inl rfl
  | readWindow => exact .inl rfl
  | consume inst k hi hk => exact .inr ⟨inst, rfl, hi, _, rfl, .drop _ hk⟩
  | consumeOversize inst k hi hk => exact .inr ⟨inst, rfl, hi, _, rfl, .fault⟩
  | toread => exact .inl rfl
  | status => exact .inl rfl

/-- What a RingBuffer operation leaves alone. -/
theorem RingNext.frame {i : Instr} {s t : State} (h : RingNext s i t) :
    t = { s with rings := t.rings, illegalOp := t.illegalOp, faults := t.faults, response := t.response } := by
  cases h <;> rfl

/-- The next state of an operation, by unit: reset, a byte at `ASM.in`, a RingBuffer operation, or one of the others. -/
inductive ExecNext (s : State) : Instr → State → Prop where
  | reset : ExecNext s .topReset (blockReset s)
  | feed (i : Instr) (b : Byte) : i.port = .asmIn → (∀ s, exec i s = .next (asmFeed b s)) → ExecNext s i (asmFeed b s)
  | ring (i : Instr) (t : State) : RingNext s i t → ExecNext s i t
  | topStatus : ExecNext s .topStatus (s.respond { status8 := topStatusWord s })
  | eqPush (w : EventWord) :
      ExecNext s (.eqPush w) ((push w s).1.respond { ok := (push w s).2, faulted := !(push w s).2 })
  | eqPop (t : State) : execEqPop s = .next t → ExecNext s .eqPop t
  | eqPushBack (t : State) : execEqPushBack s = .next t → ExecNext s .eqPushBack t
  | eqStatus : ExecNext s .eqStatus (s.respond { status32 := eqStatusWord s.params s.queue })
  | arbSample (u b : Bool) (t : State) : execArbSample u b s = .next t → ExecNext s (.arbSample u b) t
  | arbOutcome : ExecNext s .arbOutcome (s.respond { outcome := (classify s.arb.prevUsb s.arb.prevBus).code })

/-- Every next state of an operation is one of those. -/
theorem exec_next {i : Instr} {s t : State} (h : exec i s = .next t) : ExecNext s i t := by
  by_cases hp : i.port = .asmIn
  · obtain ⟨b, hb⟩ := exec_asmIn hp
    rw [hb] at h
    cases h
    exact .feed i b hp hb
  · by_cases hr : i.ringOf? = none
    · cases i <;> first | exact absurd rfl hp | (simp [Instr.ringOf?] at hr; done) | skip
      case topReset => cases h; exact .reset
      case topStatus => cases h; exact .topStatus
      case eqPush w => rw [show exec (.eqPush w) s = _ from execEqPush_eq w s] at h; cases h; exact .eqPush w
      case eqPop => exact .eqPop t h
      case eqPushBack => exact .eqPushBack t h
      case eqStatus => cases h; exact .eqStatus
      case arbSample u b => exact .arbSample u b t h
      case arbOutcome => cases h; exact .arbOutcome
    · exact .ring i t (exec_ringNext hr h)

/-- No operation changes what stands outside the block. -/
theorem exec_host {i : Instr} {s t : State} (h : exec i s = .next t) : SameHost s t := by
  cases exec_next h with
  | reset => exact ⟨rfl, rfl, rfl, rfl⟩
  | feed b => exact asmFeed_host _ s
  | ring _ _ h => rw [h.frame]; exact ⟨rfl, rfl, rfl, rfl⟩
  | topStatus => exact ⟨rfl, rfl, rfl, rfl⟩
  | eqPush w =>
    have := push_host w s
    exact ⟨this.params, this.binding, this.pending, this.schedule⟩
  | eqPop _ h => rcases execEqPop_next h with ⟨-, rfl⟩ | ⟨-, -, rfl⟩ | ⟨-, -, w, -, rfl⟩ <;> exact ⟨rfl, rfl, rfl, rfl⟩
  | eqPushBack _ h =>
    rcases execEqPushBack_next h with ⟨-, rfl⟩ | ⟨-, rfl⟩
    · exact ⟨rfl, rfl, rfl, rfl⟩
    · exact reject_host _ s
  | eqStatus => exact ⟨rfl, rfl, rfl, rfl⟩
  | arbSample u b _ h =>
    rcases execArbSample_cases u b s with ⟨-, -, e⟩ | ⟨-, ⟨-, e⟩ | ⟨-, e⟩⟩ <;> rw [e] at h <;> cases h <;>
      exact ⟨rfl, rfl, rfl, rfl⟩
  | arbOutcome => exact ⟨rfl, rfl, rfl, rfl⟩

/-- What an operation does to the assembler. -/
theorem exec_asm {i : Instr} {s t : State} (h : exec i s = .next t) :
    t.asm = .reset ∨ AsmStep s.params s.asm t.asm := by
  cases exec_next h with
  | reset => exact .inl rfl
  | feed b => exact .inr (asmFeed_asm _ s)
  | ring _ _ h => rw [h.frame]; exact .inr .same
  | topStatus => exact .inr .same
  | eqPush w =>
    right
    rcases push_cases w s with ⟨-, e⟩ | ⟨-, -, e⟩ | ⟨-, -, e⟩ <;> rw [e] <;> exact .same
  | eqPop _ h => rcases execEqPop_next h with ⟨-, rfl⟩ | ⟨-, -, rfl⟩ | ⟨-, -, w, -, rfl⟩ <;> exact .inr .same
  | eqPushBack _ h => rcases execEqPushBack_next h with ⟨-, rfl⟩ | ⟨-, rfl⟩ <;> exact .inr .same
  | eqStatus => exact .inr .same
  | arbSample u b _ h =>
    rcases execArbSample_cases u b s with ⟨-, -, e⟩ | ⟨-, ⟨-, e⟩ | ⟨-, e⟩⟩ <;> rw [e] at h <;> cases h <;> exact .inr .same
  | arbOutcome => exact .inr .same

/-- An operation emits a command only for a byte that it brings to `ASM.in`. -/
theorem exec_emitted {i : Instr} {s t : State} (h : exec i s = .next t) (he : t.response.emitted = true) :
    ∃ b, AsmEmission s.params s.asm b t.response.raw := by
  cases exec_next h with
  | reset => cases he
  | feed b => exact ⟨_, asmFeed_emitted he⟩
  | ring _ _ hr => cases hr <;> cases he
  | topStatus => cases he
  | eqPush w => rcases push_cases w s with ⟨-, e⟩ | ⟨-, -, e⟩ | ⟨-, -, e⟩ <;> rw [e] at he <;> cases he
  | eqPop _ h => rcases execEqPop_next h with ⟨-, rfl⟩ | ⟨-, -, rfl⟩ | ⟨-, -, w, -, rfl⟩ <;> cases he
  | eqPushBack _ h => rcases execEqPushBack_next h with ⟨-, rfl⟩ | ⟨-, rfl⟩ <;> cases he
  | eqStatus => cases he
  | arbSample u b _ h =>
    rcases execArbSample_cases u b s with ⟨-, -, e⟩ | ⟨-, ⟨-, e⟩ | ⟨-, e⟩⟩ <;> rw [e] at h <;> cases h <;> cases he
  | arbOutcome => cases he

/-- What an operation does to the queue. -/
theorem exec_queue {i : Instr} {s t : State} (h : exec i s = .next t) :
    t.queue = .reset ∨ QueueStep s.params s.queue t.queue := by
  cases exec_next h with
  | reset => exact .inl rfl
  | feed b => exact .inr (asmFeed_push _ s).queue
  | ring _ _ h => rw [h.frame]; exact .inr .same
  | topStatus => exact .inr .same
  | eqPush w => exact .inr (push_queue w s)
  | eqPop _ h =>
    rcases execEqPop_next h with ⟨h1, rfl⟩ | ⟨h1, h2, rfl⟩ | ⟨h1, h2, w, h3, rfl⟩
    · exact .inr (.popSlot h1)
    · exact .inr (.popNone h1 h2)
    · exact .inr (.pop w h1 h2 h3)
  | eqPushBack _ h =>
    rcases execEqPushBack_next h with ⟨h1, rfl⟩ | ⟨h1, rfl⟩
    · exact .inr (.pushBack h1)
    · exact .inr (.pbFault h1)
  | eqStatus => exact .inr .same
  | arbSample u b _ h =>
    rcases execArbSample_cases u b s with ⟨-, -, e⟩ | ⟨-, ⟨hq, e⟩ | ⟨hq, e⟩⟩ <;> rw [e] at h <;> cases h
    · exact .inr .same
    · exact .inr (.put _ (by rw [connectionEvent, eventKind_eventWord]; decide) hq)
    · exact .inr (.overflow hq)
  | arbOutcome => exact .inr .same

/-- What an operation does to the rings. -/
theorem exec_rings {i : Instr} {s t : State} (h : exec i s = .next t) :
    (i = .topReset ∧ t.rings = List.replicate s.params.numRb .reset) ∨ t.rings = s.rings ∨
    ∃ inst, i.ringOf? = some inst ∧ RingsStep inst s t := by
  cases exec_next h with
  | reset => exact .inl ⟨rfl, rfl⟩
  | feed b => rw [asmFeed_frame]; exact .inr (.inl rfl)
  | ring _ _ h => exact .inr h.rings
  | topStatus => exact .inr (.inl rfl)
  | eqPush w =>
    right; left
    rcases push_cases w s with ⟨-, e⟩ | ⟨-, -, e⟩ | ⟨-, -, e⟩ <;> rw [e] <;> rfl
  | eqPop _ h => rcases execEqPop_next h with ⟨-, rfl⟩ | ⟨-, -, rfl⟩ | ⟨-, -, w, -, rfl⟩ <;> exact .inr (.inl rfl)
  | eqPushBack _ h => rcases execEqPushBack_next h with ⟨-, rfl⟩ | ⟨-, rfl⟩ <;> exact .inr (.inl rfl)
  | eqStatus => exact .inr (.inl rfl)
  | arbSample u b _ h =>
    rcases execArbSample_cases u b s with ⟨-, -, e⟩ | ⟨-, ⟨-, e⟩ | ⟨-, e⟩⟩ <;> rw [e] at h <;> cases h <;>
      exact .inr (.inl rfl)
  | arbOutcome => exact .inr (.inl rfl)

theorem push_faults {w : EventWord} {s : State} {c : FaultCode} (h : c ∈ s.faults) : c ∈ (push w s).1.faults := by
  rcases push_cases w s with ⟨-, e⟩ | ⟨-, -, e⟩ | ⟨-, -, e⟩ <;> rw [e]
  · simpa using mem_insertFault.mpr (.inr h)
  · simpa using mem_insertFault.mpr (.inr h)
  · exact h

theorem FeedPush.faults {s t : State} {c : FaultCode} (h : FeedPush s t) (hc : c ∈ s.faults) : c ∈ t.faults := by
  cases h with
  | silent _ hf => exact hf ▸ hc
  | stored _ _ _ hf => exact hf ▸ hc
  | refused _ _ _ hf => exact hf ▸ mem_insertFault.mpr (.inr hc)

end Sys2Proof.Machine
end

