-- ==== Sys2Proof/Laws/Assembler.lean ====
section
/-! SUPPORT. The bytes of the accumulator, and the assembler's invariant (R16 to R19, R58). -/

namespace Sys2Proof.Machine

/-! The bytes of the accumulator as a data byte is OR-ed in -/

@[simp] theorem rawStatus_zext24 : ∀ b : Byte, rawStatus (zext24 b) = b := by decide
@[simp] theorem rawData0_zext24 : ∀ b : Byte, rawData0 (zext24 b) = 0 := by decide
@[simp] theorem rawData1_zext24 : ∀ b : Byte, rawData1 (zext24 b) = 0 := by decide

theorem rawStatus_or (x y : Raw) : rawStatus (x ||| y) = rawStatus x ||| rawStatus y := BitVec.extractLsb'_or
theorem rawData0_or (x y : Raw) : rawData0 (x ||| y) = rawData0 x ||| rawData0 y := BitVec.extractLsb'_or
theorem rawData1_or (x y : Raw) : rawData1 (x ||| y) = rawData1 x ||| rawData1 y := BitVec.extractLsb'_or

/-- A byte shifted to bits [15:8] is the first data byte. -/
theorem shift8_fields : ∀ b : Byte,
    rawStatus (zext24 b <<< 8) = 0 ∧ rawData0 (zext24 b <<< 8) = b ∧ rawData1 (zext24 b <<< 8) = 0 := by decide

/-- A byte shifted to bits [23:16] is the second data byte. -/
theorem shift16_fields : ∀ b : Byte,
    rawStatus (zext24 b <<< 16) = 0 ∧ rawData0 (zext24 b <<< 16) = 0 ∧ rawData1 (zext24 b <<< 16) = b := by decide

/-! The MidiCommand view (R59) -/

theorem definedLength_cvStatus {p : Params} {st : Byte} (h : byteClass st = .cvStatus) :
    definedLength p st = some (lenOf p st) := by simp [definedLength, h]

theorem definedLength_sysOneByte {p : Params} {st : Byte} (h : byteClass st = .sysOneByte) :
    definedLength p st = some 0 := by simp [definedLength, h]

theorem data1Valid_iff {p : Params} {r : Raw} : data1Valid p r = true ↔ byteFormLength p r = some 3 := by
  unfold data1Valid byteFormLength
  cases definedLength p (rawStatus r) with
  | none => simp
  | some len =>
    rw [decide_eq_true_iff, Option.map_some, Option.some.injEq, Option.some.injEq]
    omega

/-! The invariant -/

theorem Assembler.reset_inv : Assembler.reset.Inv := by
  constructor <;> simp [Assembler.reset]

theorem startCommand_inv (a : Assembler) {b : Byte} {n : BitVec 8} (hb : byteClass b = .cvStatus)
    (hn : n = 0 ∨ n = 1 ∨ n = 2) : (startCommand a b n).Inv := by
  refine ⟨.inr hb, .inl rfl, hn, fun _ => ⟨hb, ?_, ?_, ?_⟩, fun _ _ => ?_, fun _ h => absurd rfl h⟩
  · exact rawStatus_zext24 b
  · exact rawData1_zext24 b
  · exact (congrArg byteClass (rawData0_zext24 b)).trans (by decide)
  · exact rawData0_zext24 b

/-- A good assembler with a command in flight has taken no data byte, or one with one to come. -/
theorem Assembler.Inv.in_flight_cases {a : Assembler} (h : a.Inv) (hr : a.pendingLenRemaining ≠ 0) :
    (a.offset = 8 ∧ rawData0 a.accumulator = 0) ∨ (a.offset = 16 ∧ a.pendingLenRemaining = 1) := by
  by_cases ho : a.offset = 8
  · exact .inl ⟨ho, h.no_data_yet hr ho⟩
  · exact .inr (h.one_data hr ho)

/-- The three bytes of the accumulator after a data byte is taken in. -/
theorem takeData_fields {a : Assembler} {b : Byte} (h : a.Inv) (hr : a.pendingLenRemaining ≠ 0) :
    rawStatus (takeData a b).accumulator = a.pendingStatus ∧
    ((a.offset = 8 ∧ rawData0 (takeData a b).accumulator = b ∧ rawData1 (takeData a b).accumulator = 0) ∨
     (a.offset = 16 ∧ a.pendingLenRemaining = 1 ∧ rawData0 (takeData a b).accumulator = rawData0 a.accumulator ∧
      rawData1 (takeData a b).accumulator = b)) := by
  obtain ⟨-, hs, hd1, -⟩ := h.in_flight hr
  simp only [takeData, rawStatus_or, rawData0_or, rawData1_or, hs, hd1]
  rcases h.in_flight_cases hr with ⟨ho, hd0⟩ | ⟨ho, hr1⟩
  · obtain ⟨h1, h2, h3⟩ := shift8_fields b
    rw [ho]
    simp [h1, h2, h3, hd0]
  · obtain ⟨h1, h2, h3⟩ := shift16_fields b
    rw [ho]
    simp [h1, h2, h3, hr1]

theorem takeData_inv {a : Assembler} {b : Byte} (h : a.Inv) (hb : byteClass b = .data) (hr : a.pendingLenRemaining ≠ 0) :
    (takeData a b).Inv := by
  obtain ⟨hcv, -, -, -⟩ := h.in_flight hr
  obtain ⟨hs, hcases⟩ := takeData_fields (b := b) h hr
  have hrem : (takeData a b).pendingLenRemaining = a.pendingLenRemaining - 1 := rfl
  have hoff : (takeData a b).offset = a.offset + 8 := rfl
  rcases h.remaining with h0 | h1 | h2
  · exact absurd h0 hr
  · have hz : (takeData a b).pendingLenRemaining = 0 := by rw [hrem, h1]; rfl
    refine ⟨.inr hcv, ?_, .inl hz, fun h => absurd hz h, fun h => absurd hz h, fun h => absurd hz h⟩
    rw [hoff]
    rcases hcases with ⟨ho, -⟩ | ⟨ho, -⟩ <;> rw [ho] <;> decide
  · rcases hcases with ⟨ho, hd0, hd1⟩ | ⟨-, hr1, -⟩
    · have hone : (takeData a b).pendingLenRemaining = 1 := by rw [hrem, h2]; rfl
      have ho16 : (takeData a b).offset = 16 := by rw [hoff, ho]; rfl
      refine ⟨.inr hcv, .inr (.inl ho16), .inr (.inl hone), fun _ => ⟨hcv, hs, hd1, by rw [hd0]; exact hb⟩,
        fun _ h8 => ?_, fun _ _ => ⟨ho16, hone⟩⟩
      rw [ho16] at h8
      exact absurd h8 (by decide)
    · rw [h2] at hr1
      exact absurd hr1 (by decide)

/-- Whatever an operation does to the assembler, it stays good. -/
theorem AsmStep.inv {p : Params} {a a' : Assembler} (h : a.Inv) (hs : AsmStep p a a') : a'.Inv := by
  cases hs with
  | same => exact h
  | bracket f => exact ⟨h.status, h.offset, h.remaining, h.in_flight, h.no_data_yet, h.one_data⟩
  | start b n hb hn _ => exact startCommand_inv a hb hn
  | data b hb hr => exact takeData_inv h hb hr
  | restart b n hb hps hn _ =>
    refine takeData_inv (startCommand_inv a hps (.inr hn)) hb ?_
    change n ≠ 0
    rcases hn with rfl | rfl <;> decide

/-! The length of the command in flight -/

theorem Assembler.reset_fitsTable (p : Params) : Assembler.reset.FitsTable p := fun h => absurd rfl h

theorem startCommand_fitsTable {p : Params} (a : Assembler) {b : Byte} {n : BitVec 8} (hn : n = 0 ∨ n.toNat = lenOf p b) :
    (startCommand a b n).FitsTable p := by
  intro hr
  have h := hn.resolve_left hr
  change 8 + 8 * n.toNat = 8 + 8 * lenOf p b
  omega

/-- A data byte taken in counts one up in `offset` and one down in `pending_len_remaining`. -/
theorem takeData_fitsTable {p : Params} {a : Assembler} {b : Byte} (hi : a.Inv) (h : a.FitsTable p)
    (hr : a.pendingLenRemaining ≠ 0) : (takeData a b).FitsTable p := by
  intro hr'
  have hfit := h hr
  change a.pendingLenRemaining - 1 ≠ 0 at hr'
  change (a.offset + 8).toNat + 8 * (a.pendingLenRemaining - 1).toNat = 8 + 8 * lenOf p a.pendingStatus
  have h1 : a.pendingLenRemaining ≠ 1 := fun h1 => hr' (by rw [h1]; rfl)
  have h2 : a.pendingLenRemaining = 2 := (hi.remaining.resolve_left hr).resolve_left h1
  have ho : a.offset = 8 := Decidable.byContradiction fun ho => h1 (hi.one_data hr ho).2
  rw [ho, h2] at hfit ⊢
  exact hfit

theorem AsmStep.fitsTable {p : Params} {a a' : Assembler} (hi : a.Inv) (h : a.FitsTable p) (hs : AsmStep p a a') :
    a'.FitsTable p := by
  cases hs with
  | same => exact h
  | bracket f => exact h
  | start b n _ _ hn => exact startCommand_fitsTable a hn
  | data b _ hr => exact takeData_fitsTable hi h hr
  | restart b n _ hps hn hlen =>
    refine takeData_fitsTable (startCommand_inv a hps (.inr hn)) (startCommand_fitsTable a (.inr hlen)) ?_
    change n ≠ 0
    rcases hn with rfl | rfl <;> decide

end Sys2Proof.Machine
end

