-- ==== Sys2Proof/Laws/PerInstr.lean ====
section
/-! SUPPORT. A law of every operation's encoding, one lemma for each: the unit in the opcode's high nibble, and the side of a
ring in its bit 3 (30_encoding.md R66). -/

namespace Sys2Proof.Laws.UnitNibble

/-- Bits [7:4] of the opcodes of a port's operations (R66). -/
def unitNibble : Port → BitVec 4
  | .ctl => 0x0
  | .asmIn => 0x1
  | .rbProd _ | .rbCons _ => 0x2
  | .eqPush | .eqPop => 0x3
  | .arbIn => 0x4

/-- Bit 3 of the opcodes of a ring's operations: 0 at the producer port, 1 at the consumer port (R66). -/
def sideBit : Port → Option Bool
  | .rbProd _ => some false
  | .rbCons _ => some true
  | _ => none

/-- The operation is encoded as a request on its own port, whose opcode names its unit and, for a ring, its side; or it is a
byte at `ASM.in`. -/
def Statement (i : Instr) : Prop :=
  match encode i with
  | .op r => r.port = i.port ∧ r.opcode.extractLsb' 4 4 = unitNibble i.port ∧
      ∀ side, sideBit i.port = some side → r.opcode.getLsbD 3 = side
  | .midiByte _ => i.port = .asmIn

theorem of_op {i : Instr} {r : Request} (opcode : Byte) (encoded : encode i = .op r) (port : r.port = i.port)
    (eq : r.opcode = opcode) (unit : opcode.extractLsb' 4 4 = unitNibble i.port)
    (side : ∀ side, sideBit i.port = some side → opcode.getLsbD 3 = side) : Statement i := by
  unfold Statement
  rw [encoded]
  subst eq
  exact ⟨port, unit, side⟩

theorem topReset : Statement .topReset := of_op 0x01 rfl rfl rfl rfl (fun _ h => nomatch h)
theorem topStatus : Statement .topStatus := of_op 0x02 rfl rfl rfl rfl (fun _ h => nomatch h)
theorem asmFeed (b : Byte) : Statement (.asmFeed b) := of_op 0x10 rfl rfl rfl rfl (fun _ h => nomatch h)
theorem rbWrite (inst : Nat) (data : List Byte) : Statement (.rbWrite inst data) := of_op 0x20 rfl rfl rfl rfl (fun _ h => Option.some.inj h)
theorem rbGetWriteWindow (inst : Nat) : Statement (.rbGetWriteWindow inst) := of_op 0x21 rfl rfl rfl rfl (fun _ h => Option.some.inj h)
theorem rbCommitWrite (inst : Nat) (data : List Byte) : Statement (.rbCommitWrite inst data) := of_op 0x22 rfl rfl rfl rfl (fun _ h => Option.some.inj h)
theorem rbTowrite (inst : Nat) : Statement (.rbTowrite inst) := of_op 0x23 rfl rfl rfl rfl (fun _ h => Option.some.inj h)
theorem rbRead (inst : Nat) (n : Pos) : Statement (.rbRead inst n) := of_op 0x28 rfl rfl rfl rfl (fun _ h => Option.some.inj h)
theorem rbPeek (inst : Nat) (n : Pos) : Statement (.rbPeek inst n) := of_op 0x29 rfl rfl rfl rfl (fun _ h => Option.some.inj h)
theorem rbGetReadWindow (inst : Nat) : Statement (.rbGetReadWindow inst) := of_op 0x2A rfl rfl rfl rfl (fun _ h => Option.some.inj h)
theorem rbConsume (inst : Nat) (k : Pos) : Statement (.rbConsume inst k) := of_op 0x2B rfl rfl rfl rfl (fun _ h => Option.some.inj h)
theorem rbToread (inst : Nat) : Statement (.rbToread inst) := of_op 0x2C rfl rfl rfl rfl (fun _ h => Option.some.inj h)
theorem rbStatus (inst : Nat) : Statement (.rbStatus inst) := of_op 0x2D rfl rfl rfl rfl (fun _ h => Option.some.inj h)
theorem eqPush (word : EventWord) : Statement (.eqPush word) := of_op 0x30 rfl rfl rfl rfl (fun _ h => nomatch h)
theorem eqPop : Statement .eqPop := of_op 0x38 rfl rfl rfl rfl (fun _ h => nomatch h)
theorem eqPushBack : Statement .eqPushBack := of_op 0x39 rfl rfl rfl rfl (fun _ h => nomatch h)
theorem eqStatus : Statement .eqStatus := of_op 0x3A rfl rfl rfl rfl (fun _ h => nomatch h)
theorem arbSample (usb bus : Bool) : Statement (.arbSample usb bus) := of_op 0x40 rfl rfl rfl rfl (fun _ h => nomatch h)
theorem arbOutcome : Statement .arbOutcome := of_op 0x41 rfl rfl rfl rfl (fun _ h => nomatch h)
theorem midiData (value : BitVec 7) : Statement (.midiData value) := rfl
theorem midiCvNoteOff (channel : BitVec 4) : Statement (.midiCvNoteOff channel) := rfl
theorem midiCvNoteOn (channel : BitVec 4) : Statement (.midiCvNoteOn channel) := rfl
theorem midiCvPolyPressure (channel : BitVec 4) : Statement (.midiCvPolyPressure channel) := rfl
theorem midiCvControlChange (channel : BitVec 4) : Statement (.midiCvControlChange channel) := rfl
theorem midiCvProgramChange (channel : BitVec 4) : Statement (.midiCvProgramChange channel) := rfl
theorem midiCvChannelPressure (channel : BitVec 4) : Statement (.midiCvChannelPressure channel) := rfl
theorem midiCvPitchBend (channel : BitVec 4) : Statement (.midiCvPitchBend channel) := rfl
theorem midiSysexStart : Statement .midiSysexStart := rfl
theorem midiSysexEnd : Statement .midiSysexEnd := rfl
theorem midiSysF1 : Statement .midiSysF1 := rfl
theorem midiSysF2 : Statement .midiSysF2 := rfl
theorem midiSysF3 : Statement .midiSysF3 := rfl
theorem midiSysF4 : Statement .midiSysF4 := rfl
theorem midiSysF5 : Statement .midiSysF5 := rfl
theorem midiSysF6 : Statement .midiSysF6 := rfl
theorem midiSysF8 : Statement .midiSysF8 := rfl
theorem midiSysF9 : Statement .midiSysF9 := rfl
theorem midiSysFA : Statement .midiSysFA := rfl
theorem midiSysFB : Statement .midiSysFB := rfl
theorem midiSysFC : Statement .midiSysFC := rfl
theorem midiSysFD : Statement .midiSysFD := rfl
theorem midiSysFE : Statement .midiSysFE := rfl
theorem midiSysFF : Statement .midiSysFF := rfl

end Sys2Proof.Laws.UnitNibble
end

