-- ==== Sys2Proof/Laws/Queue.lean ====
section
/-! SUPPORT. What the queue's shared operations do to its count, its contents and its invariant (R27, R103, R104, R111). -/

namespace Sys2Proof.Machine

variable {p : Params} {q : EventQueue}

theorem eqCount_lt (h : q.Inv p) : eqCount p q < p.eqDepth := modSub_lt h.wr_lt h.rd_lt

theorem wr_eq (h : q.Inv p) : (q.rd.toNat + eqCount p q) % p.eqDepth = q.wr.toNat := add_modSub h.wr_lt h.rd_lt

theorem entryContents_eq (h : q.Inv p) : readCells p.eqDepth q.entry q.rd.toNat (eqCount p q) = some (entryContents p q) := by
  obtain ⟨ws, hws⟩ := Option.isSome_iff_exists.mp (readCells_isSome.mpr h.readable)
  rw [entryContents, hws]
  rfl

theorem entryContents_length (h : q.Inv p) : (entryContents p q).length = eqCount p q := readCells_length (entryContents_eq h)

/-! A word stored -/

theorem eqCount_put (hp : p.WF) (h : q.Inv p) (w : EventWord) (hq : eqCount p q ≠ p.eqDepth - 1) :
    eqCount p (queuePut p q w) = eqCount p q + 1 := by
  have := eqCount_lt h
  exact modSub_advance_far h.wr_lt h.rd_lt hp.2.2.1.2 (by change eqCount p q + 1 < _; omega)

theorem queuePut_entry (h : q.Inv p) (w : EventWord) :
    (queuePut p q w).entry = writeCells p.eqDepth q.entry (q.rd.toNat + eqCount p q) [w] := by
  simp only [writeCells, wr_eq h]
  rfl

theorem entryContents_put (hp : p.WF) (h : q.Inv p) (w : EventWord) (hq : eqCount p q ≠ p.eqDepth - 1) :
    entryContents p (queuePut p q w) = entryContents p q ++ [w] := by
  have := eqCount_lt h
  have := readCells_writeCells_append (vs := [w]) (by simp; omega) (entryContents_eq h)
  rw [entryContents, eqCount_put hp h w hq, queuePut_entry h, show (queuePut p q w).rd = q.rd from rfl]
  rw [List.length_singleton] at this
  rw [this]
  rfl

/-! The oldest entry popped -/

/-- The queue after the oldest entry is popped (R104). -/
abbrev queuePop (p : Params) (q : EventQueue) (w : EventWord) : EventQueue :=
  { q with rd := modAdd q.rd 1 p.eqDepth, last := w, pbArmed := true }

theorem eqCount_pop (hp : p.WF) (h : q.Inv p) (w : EventWord) (hq : eqCount p q ≠ 0) :
    eqCount p (queuePop p q w) = eqCount p q - 1 :=
  modSub_advance_near h.wr_lt h.rd_lt hp.2.2.1.2 (by change 1 ≤ eqCount p q; omega)

theorem entryContents_pop (hp : p.WF) (h : q.Inv p) {w : EventWord} (hq : eqCount p q ≠ 0)
    (hw : Memory.read q.entry q.rd.toNat = some w) : entryContents p q = w :: entryContents p (queuePop p q w) := by
  have hd : 0 < p.eqDepth := by have := hp.2.2.1.1; omega
  have h1 := entryContents_eq h
  have h2 := readCells_drop h1 (i := 1) (by omega)
  have h3 := readCells_getElem h1 (j := 0) (by rw [entryContents_length h]; omega)
  rw [Nat.add_zero, Nat.mod_eq_of_lt h.rd_lt, hw] at h3
  have h4 : entryContents p (queuePop p q w) = (entryContents p q).drop 1 := by
    rw [entryContents, eqCount_pop hp h w hq]
    simp only [modAdd_toNat hd hp.2.2.1.2, readCells_mod, h2]
    rfl
  rw [h4]
  have hl := entryContents_length h
  cases he : entryContents p q with
  | nil => rw [he] at hl; simp at hl; omega
  | cons x xs => simp [he] at h3 ⊢; exact h3.symm

/-! The invariant -/

theorem EventQueue.reset_inv (hp : p.WF) : EventQueue.reset.Inv p := by
  have := hp.2.2.1.1
  refine ⟨by simp [EventQueue.reset]; omega, by simp [EventQueue.reset]; omega, rfl, by simp [EventQueue.reset], ?_,
    by simp [EventQueue.reset], by simp [EventQueue.reset], by simp [EventQueue.reset]⟩
  intro j hj
  simp [eqCount, EventQueue.reset, modSub_self] at hj

/-- Whatever an operation does to the queue, it stays good. -/
theorem QueueStep.inv {q' : EventQueue} (hp : p.WF) (h : q.Inv p) (hs : QueueStep p q q') : q'.Inv p := by
  have hd : 0 < p.eqDepth := by have := hp.2.2.1.1; omega
  cases hs with
  | same => exact h
  | put w hk hq =>
    have hlt := eqCount_lt h
    refine ⟨h.rd_lt, modAdd_lt hd hp.2.2.1.2, Memory.wf_write h.entry_wf _ _, fun c hc => ?_, fun j hj => ?_, fun c hc => ?_,
      h.slot_kind, h.last_kind⟩
    · rcases Memory.mem_write hc with rfl | hc
      · exact h.wr_lt
      · exact h.entry_lt c hc
    · rw [eqCount_put hp h w hq] at hj
      rw [queuePut_entry h]
      exact readable_writeCells (vs := [w]) (by simp; omega) h.readable j (by simpa using hj)
    · rcases Memory.mem_write hc with rfl | hc
      · exact hk
      · exact h.entry_kind c hc
  | popSlot => exact ⟨h.rd_lt, h.wr_lt, h.entry_wf, h.entry_lt, h.readable, h.entry_kind, by simp, by simp⟩
  | popNone hv =>
    exact ⟨h.rd_lt, h.wr_lt, h.entry_wf, h.entry_lt, h.readable, h.entry_kind, by simp [hv], by simp⟩
  | pop w hv hq hw =>
    refine ⟨modAdd_lt hd hp.2.2.1.2, h.wr_lt, h.entry_wf, h.entry_lt, fun j hj => ?_, h.entry_kind, by simp [hv],
      fun _ => ?_⟩
    rotate_left
    · exact h.entry_kind (q.rd.toNat, w) (Memory.mem_of_read hw)
    rw [eqCount_pop hp h w hq] at hj
    simp only [modAdd_toNat hd hp.2.2.1.2, Nat.mod_add_mod, Nat.add_assoc]
    exact h.readable (1 + j) (by omega)
  | pushBack ha =>
    exact ⟨h.rd_lt, h.wr_lt, h.entry_wf, h.entry_lt, h.readable, h.entry_kind, fun _ => ⟨rfl, h.last_kind ha, rfl⟩, by simp⟩
  | pbFault =>
    exact ⟨h.rd_lt, h.wr_lt, h.entry_wf, h.entry_lt, h.readable, h.entry_kind, h.slot_kind, h.last_kind⟩
  | overflow =>
    exact ⟨h.rd_lt, h.wr_lt, h.entry_wf, h.entry_lt, h.readable, h.entry_kind, h.slot_kind, h.last_kind⟩

end Sys2Proof.Machine
end

