-- ==== Sys2Proof/Laws/Reset.lean ====
section
/-! SUPPORT. The parameters of the reset state are legal, and the byte classes by their bounds. -/

namespace Sys2Proof.Machine

theorem lenTableDefault_length : lenTableDefault.length = 256 := by
  simp only [lenTableDefault, List.length_append, List.length_replicate]

theorem conventions_wf : conventions.WF := ⟨by decide, by decide, by decide, lenTableDefault_length⟩

/-- A byte below 0x80 is data. -/
theorem byteClass_data_iff {b : Byte} : byteClass b = .data ↔ b.toNat ≤ 0x7F := by
  unfold byteClass
  repeat' split
  all_goals simp
  all_goals omega

/-- 0x80 to 0xEF is a channel-voice status. -/
theorem byteClass_cvStatus_iff {b : Byte} : byteClass b = .cvStatus ↔ 0x80 ≤ b.toNat ∧ b.toNat ≤ 0xEF := by
  unfold byteClass
  repeat' split
  all_goals simp
  all_goals omega

end Sys2Proof.Machine
end

