-- ==== Sys2Proof/Laws/Step.lean ====
section
/-! SUPPORT. What one step can do, said once. -/

namespace Sys2Proof.Machine

/-- Whatever an operation does to a ring, it stays good. -/
theorem RingStep.inv {p : Params} {r r' : Ring} (hp : p.WF) (h : r.Inv p) (hs : RingStep p r r') : r'.Inv p := by
  cases hs with
  | put bs _ hlen => exact ringPut_inv hp h hlen
  | window => exact h.flags true r.rbFault
  | commit bs _ hlen => exact (ringPut_inv hp h (Nat.le_trans hlen (writeRun_le_towrite h))).flags false r.rbFault
  | drop k hk => exact ringDrop_inv hp h hk
  | fault => exact h.flags r.writeLock true

/-- The part of a state that a step may set before the operation runs: what agents have yet to do. -/
def SameBlock (s u : State) : Prop := u = { s with pending := u.pending, schedule := u.schedule }

theorem perform_next {a : Agent} {tx : Transaction} {u t : State} (h : perform a tx u = .next t) :
    u.resetDone = true ∧ (t = reject .illegalOp u ∨ ∃ i, decode tx = .ok i ∧ exec i u = .next t) := by
  unfold perform at h
  split at h
  · cases h
  · next hr =>
    split at h
    · cases h
    · split at h
      · cases h
        exact ⟨by simpa using hr, .inl rfl⟩
      · next i hi => exact ⟨by simpa using hr, .inr ⟨i, hi, h⟩⟩

/-- A step takes the turn and an item off what is to come, then resets the block, runs one operation, rejects an illegal
one, or does nothing; the bytes a DRAIN read are left to be fed. -/
theorem step_next {s t : State} (h : step s = .next t) :
    ∃ u v, SameBlock s u ∧ t = { v with pending := t.pending } ∧
      (v = u ∨ v = blockReset u ∨ v = reject .illegalOp u ∨ ∃ i, exec i u = .next v) := by
  have hperf : ∀ {a : Agent} {tx : Transaction} {u : State}, SameBlock s u → perform a tx u = .next t →
      ∃ u v, SameBlock s u ∧ t = { v with pending := t.pending } ∧
        (v = u ∨ v = blockReset u ∨ v = reject .illegalOp u ∨ ∃ i, exec i u = .next v) := by
    intro a tx u hu h
    rcases (perform_next h).2 with rfl | ⟨i, -, h⟩
    · exact ⟨u, _, hu, rfl, .inr (.inr (.inl rfl))⟩
    · exact ⟨u, t, hu, rfl, .inr (.inr (.inr ⟨i, h⟩))⟩
  unfold step at h
  split at h
  · cases h
    exact ⟨s, s, rfl, rfl, .inl rfl⟩
  · next turn turns _ =>
    cases turn with
    | resetInput =>
      cases h
      exact ⟨s.setSchedule turns, _, rfl, rfl, .inr (.inl rfl)⟩
    | agent a =>
      simp only [runTurn, runAgent] at h
      split at h
      · cases h
        exact ⟨s.setSchedule turns, _, rfl, rfl, .inl rfl⟩
      · next issue rest _ =>
        cases issue with
        | op r => exact hperf (u := (s.setSchedule turns).setPending rest) rfl h
        | feedStream bytes =>
          cases bytes with
          | nil =>
            cases h
            exact ⟨(s.setSchedule turns).setPending rest, (s.setSchedule turns).setPending rest, rfl, rfl, .inl rfl⟩
          | cons b bs =>
            simp only [runIssue] at h
            exact hperf (by rfl) h
        | drain inst n =>
          simp only [runIssue] at h
          cases hx : perform a (.op (drainRequest inst n)) ((s.setSchedule turns).setPending rest) with
          | next v =>
            rw [hx] at h
            cases h
            rcases (perform_next hx).2 with rfl | ⟨i, -, h⟩
            · exact ⟨(s.setSchedule turns).setPending rest, _, rfl, rfl, .inr (.inr (.inl rfl))⟩
            · exact ⟨(s.setSchedule turns).setPending rest, v, rfl, rfl, .inr (.inr (.inr ⟨i, h⟩))⟩
          | fault r => rw [hx] at h; cases h
          | refused r => rw [hx] at h; cases h

end Sys2Proof.Machine
end

