-- ==== Sys2Proof/Tests/Slice0.lean ====
section
/-! SUPPORT. Tests of the model against the spec's own words and vectors (95_test_vectors.md; each theorem names its row),
the WellFormed smoke, and a witness for the hypotheses of every statement that has some. -/

namespace Sys2Proof.Tests

open Sys2Proof Sys2Proof.Machine

/-! Small states -/

/-- The state after an operation, where there is one. -/
def nextOf : Result → Option State
  | .next t => some t
  | .fault _ => none
  | .refused _ => none

/-- The response of an operation. -/
def answer (i : Instr) (s : State) : Option Response := (nextOf (exec i s)).map (fun t => t.response)

/-- From reset, one ring as given. -/
def ringState (r w : Pos) (lock : Bool) (cells : Memory Byte) : State :=
  { State.reset with rings := [{ readPos := r, writePos := w, writeLock := lock, rbFault := false, storage := cells }] }

/-- From reset, the queue as given. -/
def queueState (q : EventQueue) : State := { State.reset with queue := q }

/-- From reset, the assembler as given: the state column of 95_test_vectors.md section 2.2. -/
def asmState (sysex : Bool) (status : Byte) (remaining offset : BitVec 8) (acc : Raw) : State :=
  { State.reset with asm := ⟨sysex, status, remaining, offset, acc⟩ }

/-- From reset, the stored pair as given. -/
def arbState (usb bus : Bool) : State := { State.reset with arb := ⟨usb, bus⟩ }

/-- From reset, one agent about to move, with what agents have to do. -/
def turnState (a : Agent) (ps : List Pending) : State := { State.reset with pending := ps, schedule := [.agent a] }

/-- Another entry of the length table for 0xB0 (rows A27 to A29). -/
def lenB0 (n : Nat) (s : State) : State := { s with params := { s.params with lenTable := s.params.lenTable.set 0xB0 n } }

def eventP : EventWord := 0x017F4090
def eventQ : EventWord := 0x02000015
def eventR : EventWord := 0x03000000
def eventS : EventWord := 0x04000000

/-- Entries P, Q, R: full at depth 4 (row E4). -/
def fullQueue : EventQueue := { EventQueue.reset with wr := 3, entry := [(0, eventP), (1, eventQ), (2, eventR)] }
/-- Entries P, Q (row E7). -/
def twoQueue : EventQueue := { EventQueue.reset with wr := 2, entry := [(0, eventP), (1, eventQ)] }
/-- After E7: P has been popped. -/
def poppedQueue : EventQueue := { twoQueue with rd := 1, last := eventP, pbArmed := true }
/-- After E9: P has been pushed back. -/
def pushedBackQueue : EventQueue := { twoQueue with rd := 1, last := eventP, slot := eventP, slotValid := true }

/-! WellFormed: one ill-formed term for each check -/

theorem test_wellFormed_refuses_instance_at_num_rb :
    (Instr.rbWrite 1 []).wellFormed conventions = false ∧ (Instr.rbGetWriteWindow 1).wellFormed conventions = false ∧
    (Instr.rbCommitWrite 1 []).wellFormed conventions = false ∧ (Instr.rbTowrite 1).wellFormed conventions = false ∧
    (Instr.rbRead 1 0).wellFormed conventions = false ∧ (Instr.rbPeek 1 0).wellFormed conventions = false ∧
    (Instr.rbGetReadWindow 1).wellFormed conventions = false ∧ (Instr.rbConsume 1 0).wellFormed conventions = false ∧
    (Instr.rbToread 1).wellFormed conventions = false ∧ (Instr.rbStatus 1).wellFormed conventions = false := by decide

theorem test_wellFormed_refuses_none_word : (Instr.eqPush 0x00123456).wellFormed conventions = false := by decide

theorem test_wellFormed_accepts :
    (Instr.rbRead 0 0xFFFF).wellFormed conventions = true ∧ (Instr.eqPush 0xFF000001).wellFormed conventions = true ∧
    (Instr.asmFeed 0xF4).wellFormed conventions = true ∧ (Instr.rbWrite 0 [1, 2, 3, 4, 5]).wellFormed conventions = true := by
  decide

/-! Decoding: words written out from R67 -/

theorem test_decode_top :
    decode (.op { port := .ctl, opcode := 0b00000001 }) = .ok .topReset ∧
    decode (.op { port := .ctl, opcode := 0b00000010 }) = .ok .topStatus := by
  exact ⟨rfl, rfl⟩

theorem test_decode_asm :
    decode (.op { port := .asmIn, opcode := 0b00010000, operands := { b := 0xA5 } }) = .ok (.asmFeed 0xA5) := by
  rfl

theorem test_decode_ring_producer :
    decode (.op { port := .rbProd 3, opcode := 0b00100000, operands := { inst := 3, data := [7, 8] } }) = .ok (.rbWrite 3 [7, 8]) ∧
    decode (.op { port := .rbProd 3, opcode := 0b00100001, operands := { inst := 3 } }) = .ok (.rbGetWriteWindow 3) ∧
    decode (.op { port := .rbProd 3, opcode := 0b00100010, operands := { inst := 3, data := [7, 8] } }) = .ok (.rbCommitWrite 3 [7, 8]) ∧
    decode (.op { port := .rbProd 3, opcode := 0b00100011, operands := { inst := 3 } }) = .ok (.rbTowrite 3) := by
  exact ⟨rfl, rfl, rfl, rfl⟩

theorem test_decode_ring_consumer :
    decode (.op { port := .rbCons 3, opcode := 0b00101000, operands := { inst := 3, count := 0x1234 } }) = .ok (.rbRead 3 0x1234) ∧
    decode (.op { port := .rbCons 3, opcode := 0b00101001, operands := { inst := 3, count := 0x1234 } }) = .ok (.rbPeek 3 0x1234) ∧
    decode (.op { port := .rbCons 3, opcode := 0b00101010, operands := { inst := 3 } }) = .ok (.rbGetReadWindow 3) ∧
    decode (.op { port := .rbCons 3, opcode := 0b00101011, operands := { inst := 3, count := 0x1234 } }) = .ok (.rbConsume 3 0x1234) ∧
    decode (.op { port := .rbCons 3, opcode := 0b00101100, operands := { inst := 3 } }) = .ok (.rbToread 3) ∧
    decode (.op { port := .rbCons 3, opcode := 0b00101101, operands := { inst := 3 } }) = .ok (.rbStatus 3) := by
  exact ⟨rfl, rfl, rfl, rfl, rfl, rfl⟩

theorem test_decode_queue :
    decode (.op { port := .eqPush, opcode := 0b00110000, operands := { word := 0x017F4090 } }) = .ok (.eqPush 0x017F4090) ∧
    decode (.op { port := .eqPop, opcode := 0b00111000 }) = .ok .eqPop ∧
    decode (.op { port := .eqPop, opcode := 0b00111001 }) = .ok .eqPushBack ∧
    decode (.op { port := .eqPop, opcode := 0b00111010 }) = .ok .eqStatus := by
  exact ⟨rfl, rfl, rfl, rfl⟩

theorem test_decode_arbiter :
    decode (.op { port := .arbIn, opcode := 0b01000000, operands := { usb := true } }) = .ok (.arbSample true false) ∧
    decode (.op { port := .arbIn, opcode := 0b01000000, operands := { bus := true } }) = .ok (.arbSample false true) ∧
    decode (.op { port := .arbIn, opcode := 0b01000001 }) = .ok .arbOutcome := by
  exact ⟨rfl, rfl, rfl⟩

/-- R53, R55: a byte of every row, bit by bit; the fields have mixed bits. -/
theorem test_decode_data :
    decodeMidiByte 0b00000000 = .midiData 0 ∧ decodeMidiByte 0b01111111 = .midiData 0x7F ∧
    decodeMidiByte 0b01000001 = .midiData 0x41 := by decide

theorem test_decode_channel_voice :
    decodeMidiByte 0b10000101 = .midiCvNoteOff 5 ∧ decodeMidiByte 0b10010011 = .midiCvNoteOn 3 ∧
    decodeMidiByte 0b10101111 = .midiCvPolyPressure 15 ∧ decodeMidiByte 0b10110000 = .midiCvControlChange 0 ∧
    decodeMidiByte 0b11000001 = .midiCvProgramChange 1 ∧ decodeMidiByte 0b11010011 = .midiCvChannelPressure 3 ∧
    decodeMidiByte 0b11101110 = .midiCvPitchBend 14 := by decide

theorem test_decode_system :
    decodeMidiByte 0b11110000 = .midiSysexStart ∧ decodeMidiByte 0b11110111 = .midiSysexEnd ∧
    decodeMidiByte 0b11110001 = .midiSysF1 ∧ decodeMidiByte 0b11110010 = .midiSysF2 ∧
    decodeMidiByte 0b11110011 = .midiSysF3 ∧ decodeMidiByte 0b11110100 = .midiSysF4 ∧
    decodeMidiByte 0b11110101 = .midiSysF5 ∧ decodeMidiByte 0b11110110 = .midiSysF6 ∧
    decodeMidiByte 0b11111000 = .midiSysF8 ∧ decodeMidiByte 0b11111001 = .midiSysF9 ∧
    decodeMidiByte 0b11111010 = .midiSysFA ∧ decodeMidiByte 0b11111011 = .midiSysFB ∧
    decodeMidiByte 0b11111100 = .midiSysFC ∧ decodeMidiByte 0b11111101 = .midiSysFD ∧
    decodeMidiByte 0b11111110 = .midiSysFE ∧ decodeMidiByte 0b11111111 = .midiSysFF := by decide

/-- R68, rows T2 and T3: an unassigned opcode, and EQ_POP on ASM.in; another instance's port is the wrong port too. -/
theorem test_decode_refuses :
    decode (.op { port := .ctl, opcode := 0x03 }) = .error (.unassignedOpcode 0x03) ∧
    decode (.op { port := .asmIn, opcode := 0x38 }) = .error (.wrongPort 0x38 .asmIn) ∧
    decode (.op { port := .rbCons 0, opcode := 0x28, operands := { inst := 1 } }) = .error (.wrongPort 0x28 (.rbCons 0)) := by
  exact ⟨rfl, rfl, rfl⟩

/-- A table word is an opcode where R67 has it, else a MIDI byte (log 8); there is no wider word. -/
theorem test_decodeTableWord :
    decodeTableWord 8 0x2B = some (.rbConsume 0 0) ∧ decodeTableWord 8 0x93 = some (.midiCvNoteOn 3) ∧
    decodeTableWord 8 0x00 = some (.midiData 0) ∧ decodeTableWord 8 0xF7 = some .midiSysexEnd ∧
    decodeTableWord 16 0x0138 = none := by decide

/-! The step -/

theorem test_step_runs_the_fetched_operation :
    (nextOf (step (State.reset.withFetchWord 8 0x38))).map (fun t => (t.response, t.pending, t.schedule)) = some ({}, [], []) ∧
    (nextOf (step (State.reset.withFetchWord 8 0x90))).map (fun t => t.asm) = some ⟨false, 0x90, 2, 8, 0x000090⟩ ∧
    (nextOf (step (State.reset.withFetchWord 8 0x02))).map (fun t => t.response.faulted) = some false := by decide

/-- Program P4 step 2, the DRAIN's read: [90, 40] returned, reset-on-empty, and both bytes left to be fed. -/
theorem test_drain_reads_first :
    (nextOf (step { turnState .main [⟨.main, .drain 0 8⟩] with rings := (ringState 0 2 false [(0, 0x90), (1, 0x40)]).rings })).map
      (fun t => (t.response.data, (t.ring 0).readPos, (t.ring 0).writePos, t.pending)) =
    some ([0x90, 0x40], 0, 0, [⟨.main, .feedStream [0x90, 0x40]⟩]) := by decide

/-- 60_exceptions.md R127, row T2 through the step: the fault is recorded and the run goes on. -/
theorem test_step_records_illegal_op :
    (nextOf (step (turnState .ctl [⟨.ctl, .op { port := .ctl, opcode := 0x03 }⟩]))).map
      (fun t => (t.illegalOp, t.faults, t.response)) = some (true, [.illegalOp], { faulted := true }) := by decide

/-- R102, R143: what is no step of a run. -/
theorem test_step_refuses :
    step (turnState .isr [⟨.isr, .op { port := .eqPop, opcode := 0x38 }⟩]) = .refused (.portOwnedByAnother .eqPop) ∧
    step { turnState .main [⟨.main, .op { port := .eqPop, opcode := 0x38 }⟩] with resetDone := false } =
      .refused .beforeFirstReset := by
  exact ⟨rfl, rfl⟩

/-! The assembler (95_test_vectors.md section 2.2) -/

/-- What a byte leaves in the assembler and answers. -/
def feed (i : Instr) (s : State) : Option (Assembler × Bool × Raw × Bool) :=
  (nextOf (exec i s)).map (fun t => (t.asm, t.response.emitted, t.response.raw, t.response.accepted))

/-- A1, last byte: 90 40 7F; the event is stored. -/
theorem test_asmFeed_completes :
    feed (.asmFeed 0x7F) (asmState false 0x90 1 16 0x004090) = some (⟨false, 0x90, 0, 24, 0x7F4090⟩, true, 0x7F4090, true) ∧
    (nextOf (exec (.asmFeed 0x7F) (asmState false 0x90 1 16 0x004090))).map (fun t => (t.queue.wr, t.queue.entry)) =
      some (1, [(0, 0x017F4090)]) := by decide

/-- A31, last byte: the queue is full, the command is lost and the assembler has moved on. -/
theorem test_asmFeed_overflow :
    (nextOf (exec (.asmFeed 0x04) { asmState false 0xC0 0 16 0x0003C0 with queue := fullQueue })).map
      (fun t => (t.asm, t.response, t.queue.eqOverflow, topStatusWord t)) =
    some (⟨false, 0xC0, 0, 16, 0x0004C0⟩, { emitted := true, raw := 0x0004C0 }, true, 0x04) := by decide

/-- A2; A8's running status; A11 with RUNNING_STATUS off; A10. -/
theorem test_midiData_extends :
    feed (.midiData 0x40) (asmState false 0x90 2 8 0x000090) = some (⟨false, 0x90, 1, 16, 0x004090⟩, false, 0, false) ∧
    feed (.midiData 0x05) (asmState false 0xC0 1 8 0x0000C0) = some (⟨false, 0xC0, 0, 16, 0x0005C0⟩, true, 0x0005C0, true) := by
  decide

theorem test_midiData_running_status :
    feed (.midiData 0x41) (asmState false 0x90 0 24 0x7F4090) = some (⟨false, 0x90, 1, 16, 0x004190⟩, false, 0, false) ∧
    feed (.midiData 0x06) (asmState false 0xC0 0 16 0x0005C0) = some (⟨false, 0xC0, 0, 16, 0x0006C0⟩, true, 0x0006C0, true) ∧
    feed (.midiData 0x41) { asmState false 0x90 0 24 0x7F4090 with params := { conventions with runningStatus := false } } =
      some (⟨false, 0x90, 0, 24, 0x7F4090⟩, false, 0, false) ∧
    feed (.midiData 0x40) State.reset = some (.reset, false, 0, false) := by decide

/-- A12 and A13: a status byte abandons the command in flight. -/
theorem test_midiCvNoteOff : feed (.midiCvNoteOff 0) (asmState false 0x90 1 16 0x004090) =
    some (⟨false, 0x80, 2, 8, 0x000080⟩, false, 0, false) := by decide
theorem test_midiCvNoteOn : feed (.midiCvNoteOn 0) (asmState false 0x90 2 8 0x000090) =
    some (⟨false, 0x90, 2, 8, 0x000090⟩, false, 0, false) := by decide
/-- R56, R77 by hand: length 2, the channel kept. -/
theorem test_midiCvPolyPressure : feed (.midiCvPolyPressure 9) State.reset =
    some (⟨false, 0xA9, 2, 8, 0x0000A9⟩, false, 0, false) := by decide
/-- A27 and A28: length 3 is dropped, length 0 is emitted at once. -/
theorem test_midiCvControlChange :
    feed (.midiCvControlChange 0) (lenB0 3 (asmState false 0x90 0 24 0x7F4090)) = some (⟨false, 0xB0, 0, 8, 0x0000B0⟩, false, 0, false) ∧
    feed (.midiCvControlChange 0) (lenB0 0 State.reset) = some (⟨false, 0xB0, 0, 8, 0x0000B0⟩, true, 0x0000B0, true) := by decide
/-- A29: a malformed status does not revive the one before it. -/
theorem test_midiData_after_malformed :
    feed (.midiData 0x40) (lenB0 3 (asmState false 0xB0 0 8 0x0000B0)) = some (⟨false, 0xB0, 0, 8, 0x0000B0⟩, false, 0, false) := by
  decide
theorem test_midiCvProgramChange : feed (.midiCvProgramChange 0) State.reset =
    some (⟨false, 0xC0, 1, 8, 0x0000C0⟩, false, 0, false) := by decide
/-- A5's and A6's status bytes. -/
theorem test_midiCvChannelPressure : feed (.midiCvChannelPressure 3) State.reset =
    some (⟨false, 0xD3, 1, 8, 0x0000D3⟩, false, 0, false) := by decide
theorem test_midiCvPitchBend : feed (.midiCvPitchBend 1) State.reset =
    some (⟨false, 0xE1, 2, 8, 0x0000E1⟩, false, 0, false) := by decide

/-- A25: a bracket keeps the command in flight; A23: it does not nest. -/
theorem test_midiSysexStart :
    feed .midiSysexStart (asmState false 0x90 1 16 0x004090) = some (⟨true, 0x90, 1, 16, 0x004090⟩, false, 0, false) ∧
    feed .midiSysexStart (asmState true 0x00 0 8 0) = some (⟨true, 0x00, 0, 8, 0⟩, false, 0, false) := by decide
/-- A25 and A20: 0xF7 closes a bracket, and outside one has no effect. -/
theorem test_midiSysexEnd :
    feed .midiSysexEnd (asmState true 0x90 1 16 0x004090) = some (⟨false, 0x90, 1, 16, 0x004090⟩, false, 0, false) ∧
    feed .midiSysexEnd (asmState false 0x90 1 16 0x004090) = some (⟨false, 0x90, 1, 16, 0x004090⟩, false, 0, false) := by decide

/-- A14 to A18: emitted at once, with the command in flight kept. -/
theorem test_midiSys_outside_a_bracket :
    ∀ p ∈ ([
      (.midiSysF1, 0x0000F1),
      (.midiSysF2, 0x0000F2),
      (.midiSysF3, 0x0000F3),
      (.midiSysF4, 0x0000F4),
      (.midiSysF5, 0x0000F5),
      (.midiSysF6, 0x0000F6),
      (.midiSysF8, 0x0000F8),
      (.midiSysF9, 0x0000F9),
      (.midiSysFA, 0x0000FA),
      (.midiSysFB, 0x0000FB),
      (.midiSysFC, 0x0000FC),
      (.midiSysFD, 0x0000FD),
      (.midiSysFE, 0x0000FE),
      (.midiSysFF, 0x0000FF)] : List (Instr × Raw)),
      feed p.1 (asmState false 0x90 1 16 0x004090) = some (⟨false, 0x90, 1, 16, 0x004090⟩, true, p.2, true) := by decide

/-- A22: swallowed inside a bracket, as is every status and data byte. -/
theorem test_bracket_swallows :
    ∀ i ∈ ([
      .midiSysF1, .midiSysF2, .midiSysF3, .midiSysF4, .midiSysF5, .midiSysF6, .midiSysF8,
      .midiSysF9, .midiSysFA, .midiSysFB, .midiSysFC, .midiSysFD, .midiSysFE, .midiSysFF,
      .midiCvNoteOn 0, .midiData 1] : List Instr),
      feed i (asmState true 0x00 0 8 0) = some (⟨true, 0x00, 0, 8, 0⟩, false, 0, false) := by decide

/-- Section 1: 0x90 has class 0x90 and channel 0x0 (R59), and 90 40 7F is a three-byte command with a valid data1; C0 05 is
a two-byte command (R79), 0xF8 a one-byte one (R81). -/
theorem test_midiCommand_view :
    commandClass 0x7F4090 = 0x90 ∧ commandChannel 0x7F4090 = 0x00 ∧ rawStatus 0x7F4090 = 0x90 ∧ rawData0 0x7F4090 = 0x40 ∧
    rawData1 0x7F4090 = 0x7F ∧ byteFormLength conventions 0x7F4090 = some 3 ∧ data1Valid conventions 0x7F4090 = true := by decide
theorem test_byteFormLength :
    byteFormLength conventions 0x0005C0 = some 2 ∧ data1Valid conventions 0x0005C0 = false ∧
    byteFormLength conventions 0x0000F8 = some 1 ∧ commandChannel 0x0005CD = 0x0D := by decide

/-! The RingBuffer (section 2.3, C = 4) -/

/-- Ring 0 (r, w, lock, rb_fault, storage) and the response. -/
structure RingSeen where
  r : Pos
  w : Pos
  lock : Bool
  fault : Bool
  cells : List (Nat × Byte)
  response : Response
  deriving DecidableEq, Repr

/-- What an operation leaves in ring 0, and its response. -/
def onRing (i : Instr) (s : State) : Option RingSeen :=
  (nextOf (exec i s)).map (fun t =>
    ⟨(t.ring 0).readPos, (t.ring 0).writePos, (t.ring 0).writeLock, (t.ring 0).rbFault, (t.ring 0).storage, t.response⟩)

def cellsABC : Memory Byte := [(0, 0x41), (1, 0x42), (2, 0x43)]
/-- After B7: C, D at 2, 3 and E at 0. -/
def cellsCDE : Memory Byte := [(0, 0x45), (1, 0x42), (2, 0x43), (3, 0x44)]

/-- B2, B7 and B18. -/
theorem test_rbWrite :
    onRing (.rbWrite 0 [0x41, 0x42, 0x43, 0x44]) State.reset = some ⟨0, 3, false, false, cellsABC, { written := 3 }⟩ ∧
    onRing (.rbWrite 0 [0x44, 0x45]) (ringState 2 3 false cellsABC) = some ⟨2, 1, false, false, cellsCDE, { written := 2 }⟩ := by
  decide
theorem test_rbWrite_locked :
    onRing (.rbWrite 0 [0x41]) (ringState 0 0 true []) = some ⟨0, 0, true, true, [], { faulted := true }⟩ ∧
    (nextOf (exec (.rbWrite 0 [0x41]) (ringState 0 0 true []))).map (fun t => (topStatusWord t, t.faults)) =
      some (0x02, [.rbWriteWhileLocked]) := by decide
/-- B16, B24 and B25. -/
theorem test_rbGetWriteWindow :
    onRing (.rbGetWriteWindow 0) State.reset = some ⟨0, 0, true, false, [], { start := 0, len := 3 }⟩ ∧
    onRing (.rbGetWriteWindow 0) (ringState 3 3 false []) = some ⟨3, 3, true, false, [], { start := 3, len := 1 }⟩ ∧
    onRing (.rbGetWriteWindow 0) (ringState 2 1 false cellsCDE) = some ⟨2, 1, true, false, cellsCDE, { start := 1, len := 0 }⟩ := by
  decide
/-- B21, B23, B20 and B22. -/
theorem test_rbCommitWrite :
    onRing (.rbCommitWrite 0 [0x58, 0x59]) (ringState 0 0 true []) =
      some ⟨0, 2, false, false, [(0, 0x58), (1, 0x59)], { committed := 2 }⟩ ∧
    onRing (.rbCommitWrite 0 []) (ringState 0 0 true []) = some ⟨0, 0, false, false, [], { committed := 0 }⟩ := by decide
theorem test_rbCommitWrite_faults :
    onRing (.rbCommitWrite 0 [0x41, 0x42, 0x43, 0x44]) (ringState 0 0 true []) = some ⟨0, 0, true, true, [], { faulted := true }⟩ ∧
    onRing (.rbCommitWrite 0 [0x41]) State.reset = some ⟨0, 0, false, true, [], { faulted := true }⟩ := by decide
/-- B9. -/
theorem test_rbTowrite : answer (.rbTowrite 0) State.reset = some { count := 3 } ∧
    answer (.rbTowrite 0) (ringState 2 1 false cellsCDE) = some { count := 0 } := by decide
theorem test_rbToread : answer (.rbToread 0) State.reset = some { count := 0 } ∧
    answer (.rbToread 0) (ringState 2 1 false cellsCDE) = some { count := 3 } := by decide
/-- B6 and B12; B13 and B26: no reset-on-empty when it is off or a window is open. -/
theorem test_rbRead :
    onRing (.rbRead 0 2) (ringState 0 3 false cellsABC) = some ⟨2, 3, false, false, cellsABC, { data := [0x41, 0x42] }⟩ ∧
    onRing (.rbRead 0 3) (ringState 2 1 false cellsCDE) =
      some ⟨0, 0, false, false, cellsCDE, { data := [0x43, 0x44, 0x45] }⟩ := by decide
theorem test_rbRead_without_reset :
    onRing (.rbRead 0 3) { ringState 2 1 false cellsCDE with params := { conventions with rbResetOnEmpty := false } } =
      some ⟨1, 1, false, false, cellsCDE, { data := [0x43, 0x44, 0x45] }⟩ ∧
    onRing (.rbRead 0 2) (ringState 0 2 true cellsABC) = some ⟨2, 2, true, false, cellsABC, { data := [0x41, 0x42] }⟩ := by decide
/-- B5. -/
theorem test_rbPeek : onRing (.rbPeek 0 5) (ringState 0 3 false cellsABC) =
    some ⟨0, 3, false, false, cellsABC, { data := [0x41, 0x42, 0x43] }⟩ := by decide
/-- B8. -/
theorem test_rbGetReadWindow : onRing (.rbGetReadWindow 0) (ringState 2 1 false cellsCDE) =
    some ⟨2, 1, false, false, cellsCDE, { start := 2, len := 2, data := [0x43, 0x44] }⟩ := by decide
/-- B10 and B11. -/
theorem test_rbConsume :
    onRing (.rbConsume 0 3) (ringState 2 1 false cellsCDE) = some ⟨0, 0, false, false, cellsCDE, { consumed := 3 }⟩ ∧
    onRing (.rbConsume 0 4) (ringState 2 1 false cellsCDE) = some ⟨2, 1, false, true, cellsCDE, { faulted := true }⟩ := by decide
/-- B17 and B19. -/
theorem test_rbStatus : answer (.rbStatus 0) (ringState 0 0 true []) = some { status8 := 0x01 } ∧
    answer (.rbStatus 0) ((ringState 0 0 true []).setRbFault 0) = some { status8 := 0x03 } := by decide
/-- B28. -/
theorem test_rb_illegal_instance : (nextOf (exec (.rbToread 1) State.reset)).map (fun t => (t.illegalOp, t.response)) =
    some (true, { faulted := true }) := by decide
/-- R40: a location that was never written has no value. -/
theorem test_rbRead_unwritten : exec (.rbRead 0 1) (ringState 0 1 false []) = .fault (.unwrittenStorage 0) := by rfl

/-! The EventQueue (section 2.4, D = 4) -/

/-- E3, E4, E5, E6 and E20. -/
theorem test_eqPush :
    (nextOf (exec (.eqPush eventP) State.reset)).map (fun t => (t.queue, t.response)) =
      some ({ EventQueue.reset with wr := 1, entry := [(0, eventP)] }, { ok := true }) ∧
    (nextOf (exec (.eqPush 0xFF000001) (queueState { EventQueue.reset with rd := 3, wr := 3 }))).map
      (fun t => (t.queue.wr, t.queue.entry)) = some (0, [(3, 0xFF000001)]) := by decide
theorem test_eqPush_refused :
    (nextOf (exec (.eqPush eventS) (queueState fullQueue))).map (fun t => (t.queue, t.response, t.faults)) =
      some ({ fullQueue with eqOverflow := true }, { faulted := true }, [.eqOverflow]) ∧
    (nextOf (exec (.eqPush 0x00123456) State.reset)).map (fun t => (t.queue, t.response, t.illegalOp)) =
      some (.reset, { faulted := true }, true) := by decide
/-- E7, E12, E1 and E15. -/
theorem test_eqPop :
    (nextOf (exec .eqPop (queueState twoQueue))).map (fun t => (t.queue, t.response.word)) = some (poppedQueue, eventP) ∧
    (nextOf (exec .eqPop (queueState pushedBackQueue))).map (fun t => (t.queue, t.response.word)) =
      some ({ pushedBackQueue with slotValid := false }, eventP) := by decide
theorem test_eqPop_empty :
    (nextOf (exec .eqPop (queueState { EventQueue.reset with rd := 2, wr := 2, last := eventQ, pbArmed := true }))).map
      (fun t => (t.queue, t.response)) = some ({ EventQueue.reset with rd := 2, wr := 2, last := eventQ }, {}) := by decide
/-- E9, E11 and E2. -/
theorem test_eqPushBack :
    (nextOf (exec .eqPushBack (queueState poppedQueue))).map (fun t => (t.queue, t.response)) = some (pushedBackQueue, {}) ∧
    (nextOf (exec .eqPushBack (queueState pushedBackQueue))).map (fun t => (t.queue, t.response, topStatusWord t)) =
      some ({ pushedBackQueue with pbFault := true }, { faulted := true }, 0x08) := by decide
/-- E8 and E10. -/
theorem test_eqStatus : answer .eqStatus (queueState poppedQueue) = some { status32 := 0x00010002 } ∧
    answer .eqStatus (queueState pushedBackQueue) = some { status32 := 0x00010001 } := by decide

/-! The ConnectionArbiter (section 2.5) -/

/-- The stored pair after a sample, the event pushed, the outcome and `pushed`. -/
def sample (usb bus : Bool) (s : State) : Option (Arbiter × Option EventWord × BitVec 2 × Bool) :=
  (nextOf (exec (.arbSample usb bus) s)).map (fun t =>
    (t.arb, Memory.read t.queue.entry s.queue.wr.toNat, t.response.outcome, t.response.pushed))

/-- Rows R2 to R12. -/
theorem test_arbSample :
    sample false false (arbState false false) = some (⟨false, false⟩, none, 0b00, false) ∧
    sample true false (arbState false false) = some (⟨true, false⟩, some 0x02000015, 0b01, true) ∧
    sample false true (arbState false false) = some (⟨false, true⟩, some 0x02000016, 0b01, true) ∧
    sample true true (arbState false false) = some (⟨true, true⟩, some 0x0200001B, 0b10, true) := ⟨rfl, rfl, rfl, rfl⟩
theorem test_arbSample_from_a_pair :
    sample true false (arbState true false) = some (⟨true, false⟩, none, 0b01, false) ∧
    sample false true (arbState true false) = some (⟨false, true⟩, some 0x02000006, 0b01, true) ∧
    sample true true (arbState true false) = some (⟨true, true⟩, some 0x0200001B, 0b10, true) ∧
    sample false true (arbState true true) = some (⟨false, true⟩, some 0x02000016, 0b01, true) ∧
    sample false false (arbState true true) = some (⟨false, false⟩, some 0x02000010, 0b00, true) := ⟨rfl, rfl, rfl, rfl, rfl⟩
/-- R13: a refused event leaves the pair, so that the change is retried. -/
theorem test_arbSample_refused :
    (nextOf (exec (.arbSample false false) { arbState true false with queue := fullQueue })).map
      (fun t => (t.arb, t.response, t.queue.eqOverflow)) = some (⟨true, false⟩, { outcome := 0b00 }, true) := by decide
/-- R1 and R15. -/
theorem test_arbOutcome : answer .arbOutcome State.reset = some { outcome := 0b00 } ∧
    answer .arbOutcome (arbState true true) = some { outcome := 0b10 } := by decide

/-! Top level (section 2.6) -/

/-- T7 and T8: four flags at once, and TOP_RESET. -/
theorem test_topStatus : answer .topStatus State.reset = some {} ∧
    answer .topStatus { ringState 0 0 false [] with
      illegalOp := true, queue := { EventQueue.reset with eqOverflow := true, pbFault := true },
      rings := [{ Ring.reset with rbFault := true }] } = some { status8 := 0x0F } := by decide
theorem test_topReset :
    (nextOf (exec .topReset { asmState true 0x90 1 16 0x004090 with
      illegalOp := true, queue := { fullQueue with eqOverflow := true }, arb := ⟨true, true⟩,
      rings := [{ Ring.reset with rbFault := true, readPos := 3, writeLock := true, storage := cellsABC }] })) =
    some State.reset := by rfl

/-! Witnesses: a state and operands that meet the hypotheses of each statement, clause by clause at its bounds -/

theorem ringInv_of {r : Ring} (h1 : r.readPos.toNat < 4) (h2 : r.writePos.toNat < 4) (h3 : Memory.wf r.storage = true)
    (h4 : ∀ c ∈ r.storage, c.1 < 4)
    (h5 : ∀ j, j < toread conventions r → (Memory.read r.storage ((r.readPos.toNat + j) % 4)).isSome = true) : r.Inv conventions :=
  ⟨h1, h2, h3, h4, h5⟩

theorem ringsInv_of {s : State} (hp : s.params = conventions) {r : Ring} (hr : s.rings = [r]) (h : r.Inv conventions) : s.RingsInv :=
  ⟨hp ▸ conventions_wf, by rw [hr, hp]; rfl, fun x hx => by
    rw [hr] at hx
    rw [List.mem_singleton.mp hx, hp]
    exact h⟩

theorem witness_rings_reset : State.reset.RingsInv := ringsInv_of rfl rfl (Ring.reset_inv conventions_wf)
theorem witness_rings_abc : (ringState 0 3 false cellsABC).RingsInv :=
  ringsInv_of rfl rfl (ringInv_of (by decide) (by decide) (by decide) (by decide) (by decide))
theorem witness_rings_cde : (ringState 2 1 false cellsCDE).RingsInv :=
  ringsInv_of rfl rfl (ringInv_of (by decide) (by decide) (by decide) (by decide) (by decide))
theorem witness_rings_locked : (ringState 0 2 true cellsABC).RingsInv :=
  ringsInv_of rfl rfl (ringInv_of (by decide) (by decide) (by decide) (by decide) (by decide))

theorem queueInv_of {q : EventQueue} (h : q.Inv conventions) : (queueState q).QueueInv := ⟨conventions_wf, h⟩

theorem witness_queue_reset : State.reset.QueueInv := ⟨conventions_wf, EventQueue.reset_inv conventions_wf⟩
theorem witness_queue_two : (queueState twoQueue).QueueInv :=
  queueInv_of ⟨by decide, by decide, by decide, by decide, by decide, by decide, nofun, nofun⟩
theorem witness_queue_popped : (queueState poppedQueue).QueueInv :=
  queueInv_of ⟨by decide, by decide, by decide, by decide, by decide, by decide, nofun, fun _ => by decide⟩
theorem witness_queue_pushedBack : (queueState pushedBackQueue).QueueInv :=
  queueInv_of ⟨by decide, by decide, by decide, by decide, by decide, by decide, fun _ => by decide, nofun⟩
theorem witness_queue_full : (queueState fullQueue).QueueInv :=
  queueInv_of ⟨by decide, by decide, by decide, by decide, by decide, by decide, nofun, nofun⟩

theorem witness_asm_in_flight : (asmState false 0x90 1 16 0x004090).asm.Inv :=
  ⟨.inr (by decide), by decide, by decide, fun _ => by decide, fun _ => by decide, fun _ => by decide⟩

def popRequest : Request := { port := .eqPop, opcode := 0x38 }

theorem witness_RequestDecodingIsExact :
    decode (.op popRequest) = .ok .eqPop ∧ (∃ e, decode (.op { port := .ctl, opcode := 0xFF }) = .error e) ∧
    decodeOpcode 0x00 {} = none ∧ decodeOpcode 0x42 {} = none := ⟨rfl, ⟨_, rfl⟩, rfl, rfl⟩

theorem witness_StepRunsTheDecodedRequest :
    let s := turnState .main [⟨.main, .op popRequest⟩]
    s.schedule = [.agent .main] ∧ takeFirst .main s.pending = some (.op popRequest, []) ∧ s.resetDone = true ∧
    mayIssue s.binding .main popRequest.port = true ∧ decode (.op popRequest) = .ok .eqPop := ⟨rfl, rfl, rfl, rfl, rfl⟩

/-- The last byte of a stream, and one with more to come. -/
theorem witness_StepFeedsTheNextStreamByte :
    let s := turnState .main [⟨.main, .feedStream [0x90]⟩]
    let s' := turnState .main [⟨.isr, .op popRequest⟩, ⟨.main, .feedStream [0x90, 0x40]⟩]
    takeFirst .main s.pending = some (.feedStream [0x90], []) ∧
    takeFirst .main s'.pending = some (.feedStream [0x90, 0x40], [⟨.isr, .op popRequest⟩]) ∧
    s.schedule = [.agent .main] ∧ s'.schedule = [.agent .main] ∧ s.resetDone = true ∧ s'.resetDone = true ∧
    mayIssue s.binding .main .asmIn = true ∧ mayIssue s'.binding .main .asmIn = true :=
  ⟨rfl, rfl, rfl, rfl, rfl, rfl, rfl, rfl⟩

theorem witness_DrainReadsThenFeedsTheBytes :
    let s := { turnState .main [⟨.main, .drain 0 8⟩] with rings := (ringState 0 3 false cellsABC).rings }
    takeFirst .main s.pending = some (.drain 0 8, []) ∧ s.schedule = [.agent .main] ∧ s.resetDone = true ∧
    mayIssue s.binding .main (.rbCons 0) = true ∧
    (∃ t, exec (.rbRead 0 8) (s.afterTurn [] []) = .next t ∧ t.response.data = [0x41, 0x42, 0x43]) ∧
    ∃ t, exec (.rbRead 0 8) ((turnState .main [⟨.main, .drain 0 8⟩]).afterTurn [] []) = .next t ∧ t.response.data = [] :=
  ⟨rfl, rfl, rfl, rfl, ⟨_, rfl, rfl⟩, ⟨_, rfl, rfl⟩⟩

theorem witness_ForeignAndEarlyOperationsAreRefused :
    let s := { turnState .main [⟨.main, .op popRequest⟩] with resetDone := false }
    let s' := turnState .isr [⟨.isr, .op popRequest⟩]
    takeFirst .main s.pending = some (.op popRequest, []) ∧ s.resetDone = false ∧
    takeFirst .isr s'.pending = some (.op popRequest, []) ∧ s'.resetDone = true ∧
    s'.binding.owner popRequest.port = some .main ∧ Agent.main ≠ Agent.isr := ⟨rfl, rfl, rfl, rfl, rfl, by decide⟩

theorem witness_UndecodedRequestIsIllegalOp :
    let r : Request := { port := .ctl, opcode := 0x03 }
    let s := turnState .ctl [⟨.ctl, .op r⟩]
    s.schedule = [.agent .ctl] ∧ takeFirst .ctl s.pending = some (.op r, []) ∧ s.resetDone = true ∧
    mayIssue s.binding .ctl r.port = true ∧ ∃ e, decode (.op r) = .error e := ⟨rfl, rfl, rfl, rfl, ⟨_, rfl⟩⟩

theorem witness_IssueOrderIsKept :
    takeFirst .main [⟨.isr, .feedStream []⟩, ⟨.main, .drain 0 1⟩, ⟨.main, .drain 0 2⟩] =
      some (.drain 0 1, [⟨.isr, .feedStream []⟩, ⟨.main, .drain 0 2⟩]) ∧ Agent.isr ≠ Agent.main := ⟨rfl, by decide⟩

theorem witness_IdleBlockKeepsItsState :
    State.reset.schedule = [] ∧ (turnState .main [⟨.isr, .op popRequest⟩]).schedule = [.agent .main] ∧
    ∀ p ∈ (turnState .main [⟨.isr, .op popRequest⟩]).pending, p.agent ≠ .main := ⟨rfl, rfl, by decide⟩

theorem witness_ResetRestoresEveryField :
    let s := { ringState 2 1 true cellsCDE with schedule := [.resetInput] }
    s.params.WF ∧ s.schedule = [.resetInput] := ⟨conventions_wf, rfl⟩

theorem witness_IllFormedOperationIsIllegalOp :
    (Instr.rbRead 1 0).wellFormed State.reset.params = false ∧ (Instr.eqPush 0x00FFFFFF).wellFormed State.reset.params = false := by
  decide

theorem witness_EveryOperationCompletes : State.reset.RingsInv ∧ State.reset.QueueInv := ⟨witness_rings_reset, witness_queue_reset⟩

/-- Either form of a byte at ASM.in. -/
theorem witness_Feeds : Feeds (.asmFeed 0x90) 0x90 ∧ Feeds (.midiCvNoteOn 0) 0x90 ∧ Feeds (.midiData 0x7F) 0x7F ∧
    Feeds .midiSysexStart 0xF0 ∧ Feeds .midiSysexEnd 0xF7 ∧ Feeds .midiSysFF 0xFF :=
  ⟨.inl rfl, .inr rfl, .inr rfl, .inr rfl, .inr rfl, .inr rfl⟩

theorem witness_BracketDiscardsEveryByte :
    Feeds .midiSysexEnd 0xF7 ∧ Feeds .midiSysF8 0xF8 ∧ (asmState true 0x90 1 16 0x004090).asm.awaitingSysexEnd = true :=
  ⟨.inr rfl, .inr rfl, rfl⟩

theorem witness_SysexStartOpensABracket : Feeds .midiSysexStart 0xF0 ∧ State.reset.asm.awaitingSysexEnd = false :=
  ⟨.inr rfl, rfl⟩

theorem witness_StraySysexEndHasNoEffect : Feeds (.asmFeed 0xF7) 0xF7 ∧ State.reset.asm.awaitingSysexEnd = false :=
  ⟨.inl rfl, rfl⟩

theorem witness_StatusByteStartsACommand :
    Feeds (.midiCvNoteOff 0) 0x80 ∧ lenOf State.reset.params 0x80 = 2 ∧ Feeds (.midiCvPitchBend 15) 0xEF ∧
    lenOf State.reset.params 0xEF = 2 ∧ Feeds (.midiCvProgramChange 0) 0xC0 ∧ lenOf State.reset.params 0xC0 = 1 :=
  ⟨.inr rfl, by decide, .inr rfl, by decide, .inr rfl, by decide⟩

theorem witness_ZeroAndOverlongStatus :
    Feeds (.midiCvControlChange 0) 0xB0 ∧ (lenB0 0 State.reset).params.lenTable.length = 256 ∧
    lenOf (lenB0 0 State.reset).params 0xB0 = 0 ∧ 2 < lenOf (lenB0 3 State.reset).params 0xB0 :=
  ⟨.inr rfl, by rw [lenB0, List.length_set]; exact lenTableDefault_length, by decide, by decide⟩

theorem witness_DataByteExtendsTheCommand :
    Feeds (.midiData 0) 0x00 ∧ Feeds (.midiData 0x7F) 0x7F ∧ (asmState false 0x90 1 16 0x004090).asm.pendingLenRemaining = 1 ∧
    (asmState false 0x90 2 8 0x000090).asm.pendingLenRemaining ≠ 0 ∧
    (asmState false 0x90 2 8 0x000090).asm.pendingLenRemaining ≠ 1 ∧ State.reset.params.WF :=
  ⟨.inr rfl, .inr rfl, rfl, by decide, by decide, conventions_wf⟩

theorem witness_DataByteRestartsOrIsDropped :
    State.reset.params.runningStatus = true ∧ lenOf State.reset.params 0x80 = 2 ∧ lenOf State.reset.params 0xDF = 1 ∧
    (asmState false 0x80 0 24 0x7F4080).asm.pendingLenRemaining = 0 ∧ (asmState false 0xDF 0 16 0x0001DF).asm.pendingLenRemaining = 0 ∧
    State.reset.asm.pendingLenRemaining = 0 ∧ ¬ 0x80 ≤ State.reset.asm.pendingStatus.toNat :=
  ⟨rfl, by decide, by decide, rfl, rfl, rfl, by decide⟩

theorem witness_OneByteMessageIsEmitted :
    State.reset.params.WF ∧ State.reset.asm.awaitingSysexEnd = false ∧ Feeds .midiSysF1 0xF1 ∧ Feeds .midiSysFF 0xFF :=
  ⟨conventions_wf, rfl, .inr rfl, .inr rfl⟩

theorem witness_EmittedCommandsAreWellShaped :
    (asmState false 0x90 1 16 0x004090).asm.Inv ∧
    ∃ t, exec (.midiData 0x7F) (asmState false 0x90 1 16 0x004090) = .next t ∧ t.response.emitted = true :=
  ⟨witness_asm_in_flight, _, rfl, rfl⟩

/-- Two states with the same assembler and different queues. -/
theorem witness_EmissionDependsOnTheStreamAlone :
    let s := asmState false 0x90 1 16 0x004090
    let s' := { s with queue := fullQueue }
    Feeds (.midiData 0x7F) 0x7F ∧ s.asm = s'.asm ∧ s.params = s'.params ∧ (∃ t, exec (.midiData 0x7F) s = .next t) ∧
    ∃ t, exec (.midiData 0x7F) s' = .next t := ⟨.inr rfl, rfl, rfl, ⟨_, rfl⟩, ⟨_, rfl⟩⟩

theorem witness_UnitFieldsHaveTheirOwnWriters :
    (∃ t, exec .eqPop State.reset = .next t) ∧ Instr.eqPop.port ≠ .asmIn ∧ (∀ u b, Instr.eqPop ≠ .arbSample u b) ∧
    Instr.eqPop.ringOf? = none ∧ Instr.eqPop ≠ .topReset := ⟨⟨_, rfl⟩, by decide, nofun, rfl, by decide⟩

/-- Unlocked with room for none of the bytes and for some; locked. -/
theorem witness_RbWriteStoresWhatFits :
    (ringState 0 3 false cellsABC).RingsInv ∧ towrite conventions ((ringState 0 3 false cellsABC).ring 0) = 0 ∧
    State.reset.RingsInv ∧ towrite conventions (State.reset.ring 0) = 3 ∧ (State.reset.ring 0).writeLock = false ∧
    (ringState 0 2 true cellsABC).RingsInv ∧ ((ringState 0 2 true cellsABC).ring 0).writeLock = true ∧ 0 < conventions.numRb :=
  ⟨witness_rings_abc, by decide, witness_rings_reset, by decide, rfl, witness_rings_locked, rfl, by decide⟩

theorem witness_RbGetWriteWindowLocks : (ringState 2 1 false cellsCDE).RingsInv ∧ 0 < (ringState 2 1 false cellsCDE).params.numRb :=
  ⟨witness_rings_cde, by decide⟩

/-- The run is 2 there: at most it, and one more; and no window. -/
theorem witness_RbCommitWriteClosesTheWindow :
    (ringState 0 2 true cellsABC).RingsInv ∧ ((ringState 0 2 true cellsABC).ring 0).writeLock = true ∧
    ([0x5A] : List Byte).length ≤ writeRun conventions ((ringState 0 2 true cellsABC).ring 0) ∧
    writeRun conventions ((ringState 0 2 true cellsABC).ring 0) < ([0x5A, 0x5B] : List Byte).length ∧
    (State.reset.ring 0).writeLock = false := ⟨witness_rings_locked, rfl, by decide, by decide, rfl⟩

theorem witness_RbCountsAndStatus : (ringState 2 1 false cellsCDE).RingsInv ∧ 0 < (ringState 2 1 false cellsCDE).params.numRb :=
  ⟨witness_rings_cde, by decide⟩

/-- Emptied with no window, emptied with one open, and not emptied. -/
theorem witness_RbReadTakesTheOldestBytes :
    (ringState 2 1 false cellsCDE).RingsInv ∧ toread conventions ((ringState 2 1 false cellsCDE).ring 0) = 3 ∧
    (ringState 0 2 true cellsABC).RingsInv ∧ toread conventions ((ringState 0 2 true cellsABC).ring 0) = 2 ∧
    (ringState 2 1 false cellsCDE).params.rbResetOnEmpty = true :=
  ⟨witness_rings_cde, by decide, witness_rings_locked, by decide, rfl⟩

theorem witness_RbPeekChangesNothing : (ringState 0 3 false cellsABC).RingsInv ∧ 0 < (ringState 0 3 false cellsABC).params.numRb :=
  ⟨witness_rings_abc, by decide⟩

theorem witness_RbGetReadWindowChangesNothing :
    (ringState 2 1 false cellsCDE).RingsInv ∧ 0 < (ringState 2 1 false cellsCDE).params.numRb := ⟨witness_rings_cde, by decide⟩

/-- Three bytes are held: all of them, and one more. -/
theorem witness_RbConsumeAdvances :
    (ringState 2 1 false cellsCDE).RingsInv ∧ (3 : Pos).toNat ≤ toread conventions ((ringState 2 1 false cellsCDE).ring 0) ∧
    toread conventions ((ringState 2 1 false cellsCDE).ring 0) < (4 : Pos).toNat := ⟨witness_rings_cde, by decide, by decide⟩

/-- Each of the four operations that move bytes, unfaulted, on the ring and on none. -/
theorem witness_RingIsAFifoOfBytes :
    (ringState 2 1 false cellsCDE).RingsInv ∧ (ringState 0 2 true cellsABC).RingsInv ∧
    (∃ t, exec (.rbRead 0 1) (ringState 2 1 false cellsCDE) = .next t ∧ t.response.faulted = false) ∧
    (∃ t, exec (.rbConsume 0 3) (ringState 2 1 false cellsCDE) = .next t ∧ t.response.faulted = false) ∧
    (∃ t, exec (.rbWrite 0 [1]) (ringState 2 1 false cellsCDE) = .next t ∧ t.response.faulted = false) ∧
    (∃ t, exec (.rbCommitWrite 0 [1]) (ringState 0 2 true cellsABC) = .next t ∧ t.response.faulted = false) ∧
    (∃ t, exec .arbOutcome (ringState 0 2 true cellsABC) = .next t ∧ t.response.faulted = false) :=
  ⟨witness_rings_cde, witness_rings_locked, ⟨_, rfl, rfl⟩, ⟨_, rfl, rfl⟩, ⟨_, rfl, rfl⟩, ⟨_, rfl, rfl⟩, ⟨_, rfl, rfl⟩⟩

theorem witness_RingCountsAddUp : conventions.WF ∧ ((ringState 2 1 false cellsCDE).ring 0).Inv conventions :=
  ⟨conventions_wf, witness_rings_cde.ring (by decide)⟩

theorem witness_OpenWindowIsStable :
    (ringState 0 2 true cellsABC).RingsInv ∧ ((ringState 0 2 true cellsABC).ring 0).writeLock = true ∧
    (∃ t, exec (.rbRead 0 2) (ringState 0 2 true cellsABC) = .next t) ∧
    ∃ t, exec (.rbWrite 0 [1]) (ringState 0 2 true cellsABC) = .next t := ⟨witness_rings_locked, rfl, ⟨_, rfl⟩, ⟨_, rfl⟩⟩

/-- A None event, the first other kind, and both outcomes of a push. -/
theorem witness_EqPushStoresOrOverflows :
    State.reset.params.WF ∧ (0x00FFFFFF : EventWord).extractLsb' 24 8 = 0 ∧ (0x01000000 : EventWord).extractLsb' 24 8 ≠ 0 ∧
    eqCount conventions State.reset.queue ≠ conventions.eqDepth - 1 ∧ eqCount conventions fullQueue = conventions.eqDepth - 1 :=
  ⟨conventions_wf, by decide, by decide, by decide, by decide⟩

theorem witness_EqPopDelivers :
    (queueState pushedBackQueue).QueueInv ∧ pushedBackQueue.slotValid = true ∧
    State.reset.QueueInv ∧ State.reset.queue.slotValid = false ∧ eqCount conventions State.reset.queue = 0 ∧
    (queueState twoQueue).QueueInv ∧ twoQueue.slotValid = false ∧ eqCount conventions twoQueue ≠ 0 :=
  ⟨witness_queue_pushedBack, rfl, witness_queue_reset, rfl, by decide, witness_queue_two, rfl, by decide⟩

theorem witness_EqPushBackOnlyWhenArmed :
    (queueState poppedQueue).queue.pbArmed = true ∧ (queueState pushedBackQueue).queue.pbArmed = false := ⟨rfl, rfl⟩

theorem witness_EventIsRedeliveredOnce :
    ∃ t u v, (queueState poppedQueue).queue.pbArmed = true ∧ exec .eqPushBack (queueState poppedQueue) = .next t ∧
      exec (.eqPush eventS) t = .next u ∧ exec .eqPop u = .next v := ⟨_, _, _, rfl, rfl, rfl, rfl⟩

theorem witness_EqStatusReadsTheQueue : (queueState poppedQueue).QueueInv := witness_queue_popped

theorem witness_EventQueueIsAFifo :
    (queueState twoQueue).QueueInv ∧ (queueState poppedQueue).QueueInv ∧ (∃ t, exec .eqPop (queueState twoQueue) = .next t) ∧
    (∃ t, exec .eqPushBack (queueState poppedQueue) = .next t) ∧
    (∃ t, exec (.eqPush eventS) (queueState twoQueue) = .next t ∧ t.response.ok = true) ∧
    (∃ t, exec (.arbSample true false) (queueState twoQueue) = .next t ∧ t.response.pushed = true) ∧
    (∃ t, exec .midiSysF8 (queueState twoQueue) = .next t ∧ t.response.accepted = true) ∧
    ∃ t, exec .topStatus (queueState twoQueue) = .next t :=
  ⟨witness_queue_two, witness_queue_popped, ⟨_, rfl⟩, ⟨_, rfl⟩, ⟨_, rfl, rfl⟩, ⟨_, rfl, rfl⟩, ⟨_, rfl, rfl⟩, ⟨_, rfl⟩⟩

theorem witness_ArbSampleReportsAChange :
    State.reset.params.WF ∧ (false = State.reset.arb.prevUsb ∧ false = State.reset.arb.prevBus) ∧
    ¬ (false = State.reset.arb.prevUsb ∧ true = State.reset.arb.prevBus) := ⟨conventions_wf, by decide, by decide⟩

/-- Every flag set, and an operation, and each flag's own fault. -/
theorem witness_FaultFlagsAreSticky :
    let s := { State.reset with illegalOp := true, queue := { fullQueue with eqOverflow := true, pbFault := true },
                                rings := [{ Ring.reset with rbFault := true }] }
    (∃ t, exec .eqPop s = .next t ∧ t.illegalOp = true ∧ t.queue.pbFault = true ∧ t.queue.eqOverflow = true ∧
      (t.ring 0).rbFault = true) ∧
    (∃ t, exec .eqPushBack State.reset = .next t ∧ t.queue.pbFault = true) ∧
    (∃ t, exec (.eqPush eventS) (queueState fullQueue) = .next t ∧ t.queue.eqOverflow = true) ∧
    (∃ t, exec (.rbCommitWrite 0 []) State.reset = .next t ∧ (t.ring 0).rbFault = true) ∧
    ∃ t, step s = .next t := ⟨⟨_, rfl, rfl, rfl, rfl, rfl⟩, ⟨_, rfl, rfl⟩, ⟨_, rfl, rfl⟩, ⟨_, rfl, rfl⟩, ⟨_, rfl⟩⟩

theorem witness_FaultSetOnlyGrows : ∃ t, step { State.reset with faults := [.eqOverflow], schedule := [.resetInput] } = .next t ∧
    FaultCode.eqOverflow ∈ t.faults := ⟨_, rfl, by decide⟩

theorem witness_FaultedOperationChangesOnlyFlags :
    (∃ t, exec .eqPushBack State.reset = .next t ∧ t.response.faulted = true) ∧
    ∃ t, exec (.rbConsume 0 1) State.reset = .next t ∧ t.response.faulted = true := ⟨⟨_, rfl, rfl⟩, ⟨_, rfl, rfl⟩⟩

theorem witness_ParametersAreFixed : ∃ t, step (State.reset.withFetchWord 8 0x01) = .next t := ⟨_, rfl⟩

/-- The premises of the four kept invariants hold together, and the step goes on. -/
theorem witness_InvariantsAreKept :
    State.reset.RingsInv ∧ State.reset.QueueInv ∧ State.reset.asm.Inv ∧ (∃ t, step State.reset = .next t) ∧
    State.reset.FaultsInv :=
  ⟨witness_rings_reset, witness_queue_reset, Assembler.reset_inv, ⟨_, rfl⟩, .nil, nofun, nofun, nofun, by decide⟩

theorem witness_UnwrittenStorageIsNeverRead : (ringState 2 1 false cellsCDE).RingsInv ∧ (ringState 2 1 false cellsCDE).QueueInv :=
  ⟨witness_rings_cde, witness_queue_reset.params, witness_queue_reset.queue⟩

/-- Each clause at the bounds of its range. -/
theorem witness_MidiCommandViewOfARawCommand :
    (0x80 ≤ ((0x000080 : Raw).extractLsb' 0 8).toNat ∧ ((0x000080 : Raw).extractLsb' 0 8).toNat ≤ 0xEF) ∧
    (0x80 ≤ ((0x0000EF : Raw).extractLsb' 0 8).toNat ∧ ((0x0000EF : Raw).extractLsb' 0 8).toNat ≤ 0xEF) ∧
    (0xF1 ≤ ((0x0000F1 : Raw).extractLsb' 0 8).toNat ∧ (0x0000F1 : Raw).extractLsb' 0 8 ≠ 0xF7) ∧
    (0xF1 ≤ ((0x0000FF : Raw).extractLsb' 0 8).toNat ∧ (0x0000FF : Raw).extractLsb' 0 8 ≠ 0xF7) := by decide

/-- A command in flight of length 2 after its first data byte, and a step and a byte from there. -/
theorem witness_EmittedCommandsFitTheirByteForm :
    let s := asmState false 0x90 1 16 0x004090
    s.asm.Inv ∧ s.asm.FitsTable s.params ∧ (∃ t, step s = .next t) ∧
    (∃ t, exec (.midiData 0x7F) s = .next t ∧ t.response.emitted = true) ∧
    ∃ t, exec .midiSysF8 s = .next t ∧ t.response.emitted = true :=
  ⟨witness_asm_in_flight, fun _ => by decide, ⟨_, rfl⟩, ⟨_, rfl, rfl⟩, ⟨_, rfl, rfl⟩⟩

end Sys2Proof.Tests
end

