-- ==== Sys2Proof/Proofs/Scope.lean ====
section
/-! PROOF. The statements on agents and their turns, on completion, on faulted operations and on the parameters (00_scope.md
R4, R5, R10, R11). -/

namespace Sys2Proof.Machine

/-! An agent's issue order -/

/-- The items of an agent, in its issue order (R10). -/
def itemsOf (a : Agent) (ps : List Pending) : List Pending := ps.filter (fun p => decide (p.agent = a))

@[simp] theorem itemsOf_append (a : Agent) (ps qs : List Pending) : itemsOf a (ps ++ qs) = itemsOf a ps ++ itemsOf a qs :=
  List.filter_append ..

@[simp] theorem itemsOf_cons_same (a : Agent) (x : Issue) (ps : List Pending) :
    itemsOf a ({ agent := a, issue := x } :: ps) = { agent := a, issue := x } :: itemsOf a ps :=
  List.filter_cons_of_pos (by simp)

theorem itemsOf_cons_other {a : Agent} {p : Pending} (h : p.agent ≠ a) (ps : List Pending) :
    itemsOf a (p :: ps) = itemsOf a ps := List.filter_cons_of_neg (by simpa using h)

theorem itemsOf_eq_nil {a : Agent} {ps : List Pending} (h : ∀ p ∈ ps, p.agent ≠ a) : itemsOf a ps = [] :=
  List.filter_eq_nil_iff.mpr fun p hp => by simpa using h p hp

/-- Taking an agent's item splits the pending list at it: none before it is that agent's (R10). -/
theorem takeFirst_eq_some {a : Agent} {ps rest : List Pending} {x : Issue} (h : takeFirst a ps = some (x, rest)) :
    ∃ before after, ps = before ++ { agent := a, issue := x } :: after ∧ rest = before ++ after ∧
      ∀ p ∈ before, p.agent ≠ a := by
  induction ps generalizing rest with
  | nil => cases h
  | cons p ps ih =>
    simp only [takeFirst] at h
    split at h
    · next ha =>
      cases h
      exact ⟨[], _, by rw [← ha]; rfl, rfl, nofun⟩
    · next ha =>
      split at h
      · cases h
      · next hrest =>
        cases h
        obtain ⟨before, after, rfl, rfl, hb⟩ := ih hrest
        exact ⟨p :: before, after, rfl, rfl, List.forall_mem_cons.mpr ⟨ha, hb⟩⟩

/-- Settles O10: the item stands after items of other agents only, so it heads its agent's order and is in no other's. -/
theorem issueOrderIsKept : Obligations.IssueOrderIsKept := by
  intro a ps rest x h
  obtain ⟨before, after, rfl, rfl, hb⟩ := takeFirst_eq_some h
  refine ⟨?_, fun b hne => ?_⟩
  · change itemsOf a (before ++ _) = _ :: itemsOf a (before ++ after)
    simp [itemsOf_eq_nil hb]
  · change itemsOf b (before ++ _) = itemsOf b (before ++ after)
    simp [itemsOf_cons_other (p := ⟨a, x⟩) hne.symm]

/-! The step of a chosen agent -/

/-- A chosen agent with something to do runs its first item, with the turn and the item used up (R10). -/
theorem step_of_takeFirst {s : State} {a : Agent} {turns : List Turn} {x : Issue} {rest : List Pending}
    (hs : s.schedule = .agent a :: turns) (hf : takeFirst a s.pending = some (x, rest)) :
    step s = runIssue a x (s.afterTurn turns rest) := by
  simp only [step, hs, runTurn, runAgent, State.setSchedule_pending, hf]
  rfl

/-- A transaction that may be issued and decodes is the decoded operation (R66). -/
theorem perform_decoded {a : Agent} {tx : Transaction} {s : State} {i : Instr} (hr : s.resetDone = true)
    (hm : mayIssue s.binding a tx.port = true) (hd : decode tx = .ok i) : perform a tx s = exec i s := by
  simp [perform, hr, hm, hd]

/-- Before the first reset every transaction is refused (R143). -/
theorem perform_beforeFirstReset {a : Agent} {tx : Transaction} {s : State} (hr : s.resetDone = false) :
    perform a tx s = .refused .beforeFirstReset := if_pos hr

/-- After it, a transaction on a port the agent may not use is refused (R102). -/
theorem perform_portOwnedByAnother {a : Agent} {tx : Transaction} {s : State} (hr : s.resetDone = true)
    (hm : mayIssue s.binding a tx.port = false) : perform a tx s = .refused (.portOwnedByAnother tx.port) := by
  simp [perform, hr, hm]

/-- An agent may not use a port that another agent owns (R11). -/
theorem mayIssue_of_owner_ne {b : Binding} {a o : Agent} {port : Port} (ho : b.owner port = some o) (hne : o ≠ a) :
    mayIssue b a port = false := by
  simp [mayIssue, ho, hne]

/-- Settles O5: the step performs the request, and a request that decodes is its operation. -/
theorem stepRunsTheDecodedRequest : Obligations.StepRunsTheDecodedRequest := by
  intro s a turns r rest i hs hf hr hm hd
  rw [step_of_takeFirst hs hf]
  exact perform_decoded (tx := .op r) hr hm hd

/-- Settles O8: the step performs the request, which is refused in both cases before it is decoded. -/
theorem foreignAndEarlyOperationsAreRefused : Obligations.ForeignAndEarlyOperationsAreRefused := by
  intro s a turns r rest hs hf
  rw [step_of_takeFirst hs hf]
  refine ⟨fun hr => perform_beforeFirstReset (tx := .op r) hr, fun hr o ho hne => ?_⟩
  exact perform_portOwnedByAnother (tx := .op r) hr (mayIssue_of_owner_ne ho hne)

/-! Completion -/

/-- An operation with an instance operand goes on when it does so for an existing ring (R121). -/
theorem withInstance_completes {inst : Nat} {s : State} {run : Ring → Result}
    (h : inst < s.params.numRb → ∃ t, run (s.ring inst) = .next t) : ∃ t, withInstance inst s run = .next t := by
  unfold withInstance
  split
  · exact h ‹_›
  · exact ⟨_, rfl⟩

/-- An operation of a ring that reads `k` held bytes and goes on with them goes on: the bytes have been written (R40). -/
theorem withInstance_ringBytes_completes {inst : Nat} {s : State} (hs : s.RingsInv) {k : Ring → Nat}
    (hk : ∀ r : Ring, r.Inv s.params → k r ≤ toread s.params r) {run : Ring → Result}
    (hrun : ∀ r out, ringBytes s.params r (k r) = some out → ∃ t, run r = .next t) :
    ∃ t, withInstance inst s run = .next t := by
  refine withInstance_completes fun hi => ?_
  have hr := hs.ring hi
  exact hrun _ _ (ringBytes_eq hr (hk _ hr))

/-- Every operation with a ring operand goes on when the rings are good. -/
theorem exec_ring_completes {i : Instr} {s : State} (hi : i.ringOf? ≠ none) (hs : s.RingsInv) : ∃ t, exec i s = .next t := by
  cases i <;> first | exact absurd rfl hi | skip
  case rbWrite inst data =>
    simp only [exec, execRbWrite]
    refine withInstance_completes fun _ => ?_
    split <;> exact ⟨_, rfl⟩
  case rbGetWriteWindow inst =>
    simp only [exec, execRbGetWriteWindow]
    exact withInstance_completes fun _ => ⟨_, rfl⟩
  case rbCommitWrite inst data =>
    simp only [exec, execRbCommitWrite]
    refine withInstance_completes fun _ => ?_
    split
    · exact ⟨_, rfl⟩
    · split <;> exact ⟨_, rfl⟩
  case rbTowrite inst =>
    simp only [exec, execRbTowrite]
    exact withInstance_completes fun _ => ⟨_, rfl⟩
  case rbRead inst n =>
    simp only [exec, execRbRead]
    refine withInstance_ringBytes_completes hs (fun _ _ => Nat.min_le_right n.toNat _) fun r out h => ?_
    simp [h]
  case rbPeek inst n =>
    simp only [exec, execRbPeek]
    refine withInstance_ringBytes_completes hs (fun _ _ => Nat.min_le_right n.toNat _) fun r out h => ?_
    simp [h]
  case rbGetReadWindow inst =>
    simp only [exec, execRbGetReadWindow]
    refine withInstance_ringBytes_completes hs (fun _ => readRun_le_toread) fun r out h => ?_
    simp [h]
  case rbConsume inst k =>
    simp only [exec, execRbConsume]
    refine withInstance_completes fun _ => ?_
    split <;> exact ⟨_, rfl⟩
  case rbToread inst =>
    simp only [exec, execRbToread]
    exact withInstance_completes fun _ => ⟨_, rfl⟩
  case rbStatus inst =>
    simp only [exec, execRbStatus]
    exact withInstance_completes fun _ => ⟨_, rfl⟩

/-- A good queue that holds an event has a word at its read position (R40). -/
theorem EventQueue.Inv.read_rd {p : Params} {q : EventQueue} (h : q.Inv p) (hc : eqCount p q ≠ 0) :
    ∃ w, Memory.read q.entry q.rd.toNat = some w := by
  have h0 := h.readable 0 (Nat.pos_of_ne_zero hc)
  rw [Nat.add_zero, Nat.mod_eq_of_lt h.rd_lt] at h0
  exact Option.isSome_iff_exists.mp h0

/-- EQ_POP of a good queue goes on. -/
theorem execEqPop_completes {s : State} (hs : s.QueueInv) : ∃ t, execEqPop s = .next t := by
  simp only [execEqPop]
  split
  · exact ⟨_, rfl⟩
  · split
    · exact ⟨_, rfl⟩
    · next hc =>
      obtain ⟨w, hw⟩ := hs.queue.read_rd hc
      simp [hw]

/-- EQ_PUSH_BACK goes on, armed or not (R107). -/
theorem execEqPushBack_completes (s : State) : ∃ t, execEqPushBack s = .next t := by
  simp only [execEqPushBack]
  split <;> exact ⟨_, rfl⟩

/-- ARB_SAMPLE goes on, whatever its push answers (R115). -/
theorem execArbSample_completes (usb bus : Bool) (s : State) : ∃ t, execArbSample usb bus s = .next t := by
  rcases execArbSample_cases usb bus s with ⟨-, -, e⟩ | ⟨-, ⟨-, e⟩ | ⟨-, e⟩⟩ <;> exact ⟨_, e⟩

/-- Settles O17, by unit: only the reads of storage could stop, and a good ring or queue has written what it reads. -/
theorem everyOperationCompletes : Obligations.EveryOperationCompletes := by
  intro i s hrings hqueue
  by_cases hp : i.port = .asmIn
  · obtain ⟨b, hb⟩ := exec_asmIn hp
    exact ⟨_, hb s⟩
  · by_cases hr : i.ringOf? = none
    · cases i <;> first | exact absurd rfl hp | (cases hr; done) | skip
      case topReset => exact ⟨_, rfl⟩
      case topStatus => exact ⟨_, rfl⟩
      case eqPush word => exact ⟨_, execEqPush_eq word s⟩
      case eqPop => exact execEqPop_completes hqueue
      case eqPushBack => exact execEqPushBack_completes s
      case eqStatus => exact ⟨_, rfl⟩
      case arbSample usb bus => exact execArbSample_completes usb bus s
      case arbOutcome => exact ⟨_, rfl⟩
    · exact exec_ring_completes hr hrings

/-! Faulted operations -/

/-- A byte at `ASM.in` never answers `faulted`: a refused emission does not fault it (R130). -/
theorem FeedPush.not_faulted {s t : State} (h : FeedPush s t) : t.response.faulted = false := by
  cases h with
  | silent _ _ hr => rw [hr]
  | stored _ _ _ _ hr => rw [hr]
  | refused _ _ _ _ hr => rw [hr]

/-- A faulted RingBuffer operation was rejected with a fault. -/
theorem RingNext.faulted {i : Instr} {s t : State} (h : RingNext s i t) (hf : t.response.faulted = true) :
    ∃ f, t = reject f s := by
  cases h with
  | illegal => exact ⟨.illegalOp, rfl⟩
  | writeLocked inst => exact ⟨.rbWriteWhileLocked inst, rfl⟩
  | commitNotLocked inst => exact ⟨.rbCommitNotLocked inst, rfl⟩
  | commitOversize inst => exact ⟨.rbCommitOversize inst, rfl⟩
  | consumeOversize inst => exact ⟨.rbConsumeOversize inst, rfl⟩
  | _ => cases hf

/-- A refused push is the rejection of EQ_PUSH; an accepted one does not fault (R128). -/
theorem push_faulted {w : EventWord} {s : State} (h : (!(push w s).2) = true) :
    ∃ f, (push w s).1.respond { ok := (push w s).2, faulted := !(push w s).2 } = reject f s := by
  rcases push_cases w s with ⟨-, e⟩ | ⟨-, -, e⟩ | ⟨-, -, e⟩ <;> rw [e] at h ⊢
  · exact ⟨.illegalOp, rfl⟩
  · exact ⟨.eqOverflow, rfl⟩
  · cases h

/-- Every faulted operation was rejected with a fault of R128. -/
theorem exec_faulted {i : Instr} {s t : State} (h : exec i s = .next t) (hf : t.response.faulted = true) :
    ∃ f, t = reject f s := by
  cases exec_next h with
  | reset => cases hf
  | feed i b => rw [(asmFeed_push b s).not_faulted] at hf; cases hf
  | ring _ _ hr => exact hr.faulted hf
  | topStatus => cases hf
  | eqPush w => exact push_faulted hf
  | eqPop _ h => rcases execEqPop_next h with ⟨-, rfl⟩ | ⟨-, -, rfl⟩ | ⟨-, -, w, -, rfl⟩ <;> cases hf
  | eqPushBack _ h =>
    rcases execEqPushBack_next h with ⟨-, rfl⟩ | ⟨-, rfl⟩
    · cases hf
    · exact ⟨_, rfl⟩
  | eqStatus => cases hf
  | arbSample u b _ h =>
    rcases execArbSample_cases u b s with ⟨-, -, e⟩ | ⟨-, ⟨-, e⟩ | ⟨-, e⟩⟩ <;> rw [e] at h <;> cases h <;> cases hf
  | arbOutcome => cases hf

/-- A rejection writes the flags' units, the fault set and the response. -/
theorem reject_frame (f : BlockFault) (s : State) :
    reject f s = { s with rings := (reject f s).rings, queue := (reject f s).queue, illegalOp := (reject f s).illegalOp,
                          faults := (reject f s).faults, response := (reject f s).response } := by
  cases f <;> rfl

/-- Of the queue a rejection writes the two sticky flags. -/
theorem reject_queue_frame (f : BlockFault) (s : State) :
    (reject f s).queue = { s.queue with eqOverflow := (reject f s).queue.eqOverflow, pbFault := (reject f s).queue.pbFault } := by
  cases f <;> rfl

@[simp] theorem reject_rings_length (f : BlockFault) (s : State) : (reject f s).rings.length = s.rings.length :=
  raise_rings_length s f

/-- Setting one ring's sticky flag leaves the rest of every ring alone. -/
theorem setRbFault_ring_frame (s : State) (i j : Nat) :
    (s.setRbFault i).ring j = { s.ring j with rbFault := ((s.setRbFault i).ring j).rbFault } := by
  by_cases hj : j = i
  · subst hj
    by_cases hlt : j < s.rings.length
    · rw [State.setRbFault, State.ring_setRing_same _ hlt]
    · rw [State.setRbFault, State.setRing, List.set_eq_of_length_le (by omega)]
  · rw [State.setRbFault, State.ring_setRing_other _ hj]

/-- Of a ring a rejection writes the sticky flag. -/
theorem reject_ring_frame (f : BlockFault) (s : State) (j : Nat) :
    (reject f s).ring j = { s.ring j with rbFault := ((reject f s).ring j).rbFault } := by
  cases f with
  | illegalOp => rfl
  | rbWriteWhileLocked i => exact setRbFault_ring_frame s i j
  | rbCommitNotLocked i => exact setRbFault_ring_frame s i j
  | rbCommitOversize i => exact setRbFault_ring_frame s i j
  | rbConsumeOversize i => exact setRbFault_ring_frame s i j
  | pushbackIllegal => rfl
  | eqOverflow => rfl

/-- Settles O51: a faulted operation was rejected, and a rejection writes only flags. -/
theorem faultedOperationChangesOnlyFlags : Obligations.FaultedOperationChangesOnlyFlags := by
  intro i s t h hf
  obtain ⟨f, rfl⟩ := exec_faulted h hf
  exact ⟨reject_response s f, reject_frame f s, reject_queue_frame f s, reject_rings_length f s, reject_ring_frame f s⟩

/-! The parameters -/

theorem SameBlock.params {s u : State} (h : SameBlock s u) : u.params = s.params := (congrArg State.params h :)

theorem SameBlock.binding {s u : State} (h : SameBlock s u) : u.binding = s.binding := (congrArg State.binding h :)

/-- Settles O52: taking the turn keeps the parameters and the binding, and so does whatever the step then runs. -/
theorem parametersAreFixed : Obligations.ParametersAreFixed := by
  intro s t h
  obtain ⟨u, v, hu, ht, hv⟩ := step_next h
  have huv : v.params = u.params ∧ v.binding = u.binding := by
    rcases hv with rfl | rfl | rfl | ⟨i, hi⟩
    · exact ⟨rfl, rfl⟩
    · exact ⟨blockReset_params u, blockReset_binding u⟩
    · exact ⟨reject_params u _, reject_binding u _⟩
    · exact ⟨(exec_host hi).params, (exec_host hi).binding⟩
  rw [ht]
  exact ⟨huv.1.trans hu.params, huv.2.trans hu.binding⟩

end Sys2Proof.Machine
end

/-! PROOF. The statements on what every step keeps of the rings, the queue and the assembler, and on who writes a unit's
fields (10_state.md R14 to R28). -/

namespace Sys2Proof.Machine

/-! Invariants of a step -/

/-- A property of the block is kept by every step, if it does not speak of what agents have yet to do and ILLEGAL_OP and
every operation keep it; the reset input does what TOP_RESET does (R141). -/
theorem step_keeps {P : State → Prop}
    (host : ∀ s ps ts, P s → P { s with pending := ps, schedule := ts })
    (illegal : ∀ s, P s → P (reject .illegalOp s))
    (op : ∀ i s t, P s → exec i s = .next t → P t)
    {s t : State} (hs : P s) (h : step s = .next t) : P t := by
  obtain ⟨u, v, hsu, htv, hv⟩ := step_next h
  have hu : P u := hsu ▸ host s u.pending u.schedule hs
  have hPv : P v := by
    rcases hv with rfl | rfl | rfl | ⟨i, hi⟩
    · exact hu
    · exact op .topReset u _ hu rfl
    · exact illegal u hu
    · exact op i u v hu hi
  exact htv ▸ host v t.pending v.schedule hPv

/-! Rings -/

/-- The rings' invariant speaks of the parameters and the rings alone. -/
theorem State.RingsInv.congr {s t : State} (h : s.RingsInv) (hp : t.params = s.params) (hr : t.rings = s.rings) :
    t.RingsInv := by
  refine ⟨?_, ?_, ?_⟩ <;> rw [hp]
  · exact h.params
  · rw [hr]; exact h.count
  · rw [hr]; exact h.each

theorem blockReset_ringsInv {s : State} (hp : s.params.WF) : (blockReset s).RingsInv := by
  refine ⟨hp, by simp, fun r hr => ?_⟩
  rw [List.eq_of_mem_replicate hr]
  exact Ring.reset_inv hp

/-- Every operation keeps the rings good. -/
theorem exec_ringsInv {i : Instr} {s t : State} (hs : s.RingsInv) (h : exec i s = .next t) : t.RingsInv := by
  have hp := (exec_host h).params
  rcases exec_rings h with ⟨-, hr⟩ | hr | ⟨inst, -, hi, r, hr, hstep⟩
  · exact (blockReset_ringsInv hs.params).congr hp hr
  · exact hs.congr hp hr
  · exact (hs.setRing (hstep.inv hs.params (hs.ring hi)) inst).congr hp hr

/-- Settles O53: an operation resets the rings, leaves them, or changes one in a way that keeps it good. -/
theorem ringInvariantIsKept : Obligations.RingInvariantIsKept := fun _ _ =>
  step_keeps (fun _ _ _ hs => hs.congr rfl rfl) (fun _ hs => hs.congr rfl rfl) (fun _ _ _ => exec_ringsInv)

/-! The EventQueue -/

/-- Every operation keeps the queue good. -/
theorem exec_queueInv {i : Instr} {s t : State} (hs : s.QueueInv) (h : exec i s = .next t) : t.QueueInv := by
  have hp := (exec_host h).params
  refine ⟨hp ▸ hs.params, hp ▸ ?_⟩
  rcases exec_queue h with hq | hq
  · exact hq ▸ EventQueue.reset_inv hs.params
  · exact hq.inv hs.params hs.queue

/-- Settles O54: an operation resets the queue or changes it in a way that keeps it good. -/
theorem queueInvariantIsKept : Obligations.QueueInvariantIsKept := fun _ _ =>
  step_keeps (fun _ _ _ hs => ⟨hs.params, hs.queue⟩) (fun _ hs => ⟨hs.params, hs.queue⟩) (fun _ _ _ => exec_queueInv)

/-! The assembler -/

/-- Every operation keeps the assembler good. -/
theorem exec_asmInv {i : Instr} {s t : State} (hs : s.asm.Inv) (h : exec i s = .next t) : t.asm.Inv := by
  rcases exec_asm h with ha | ha
  · exact ha ▸ Assembler.reset_inv
  · exact ha.inv hs

/-- Settles O55: an operation resets the assembler or changes it in a way that keeps it good. -/
theorem assemblerInvariantIsKept : Obligations.AssemblerInvariantIsKept := fun _ _ =>
  step_keeps (P := fun s => s.asm.Inv) (fun _ _ _ => id) (fun _ => id) (fun _ _ _ => exec_asmInv)

/-- From a good assembler, every operation keeps the command in flight at the length of its status. -/
theorem exec_fitsTable {i : Instr} {s t : State} (hi : s.asm.Inv) (hs : s.asm.FitsTable s.params)
    (h : exec i s = .next t) : t.asm.FitsTable t.params := by
  rw [(exec_host h).params]
  rcases exec_asm h with ha | ha
  · exact ha ▸ Assembler.reset_fitsTable _
  · exact ha.fitsTable hi hs

/-! Emitted commands -/

/-- A command whose byte form has 1 to 3 bytes, and whose data fields past its length are 0 (R58, R59, R65). -/
def FitsByteForm (p : Params) (r : Raw) : Prop :=
  ∃ len ≤ 2, byteFormLength p r = some (1 + len) ∧ (len < 2 → rawData1 r = 0) ∧ (len < 1 → rawData0 r = 0)

/-- A status byte without data bytes, emitted as it stands. -/
theorem zext24_fitsByteForm {p : Params} {b : Byte} (h : definedLength p b = some 0) : FitsByteForm p (zext24 b) :=
  ⟨0, by omega, by rw [byteFormLength, rawStatus_zext24, h]; rfl, fun _ => rawData1_zext24 b, fun _ => rawData0_zext24 b⟩

/-- A command completed by its last data byte: that byte is the first of one or the second of two (R18). -/
theorem takeData_fitsByteForm {p : Params} {a : Assembler} (b : Byte) (hi : a.Inv) (hfit : a.FitsTable p)
    (h1 : a.pendingLenRemaining = 1) : FitsByteForm p (takeData a b).accumulator := by
  have hr : a.pendingLenRemaining ≠ 0 := by rw [h1]; decide
  have hlen := hfit hr
  obtain ⟨hs, hdata⟩ := takeData_fields (b := b) hi hr
  have hform : byteFormLength p (takeData a b).accumulator = some (1 + lenOf p a.pendingStatus) := by
    rw [byteFormLength, hs, definedLength_cvStatus (hi.in_flight hr).1]
    rfl
  rcases hdata with ⟨ho, -, hd1⟩ | ⟨ho, -, -, -⟩
  · have hone : lenOf p a.pendingStatus = 1 := by simp [ho, h1] at hlen; omega
    exact ⟨1, by omega, hone ▸ hform, fun _ => hd1, fun h => absurd h (by omega)⟩
  · have htwo : lenOf p a.pendingStatus = 2 := by simp [ho, h1] at hlen; omega
    exact ⟨2, by omega, htwo ▸ hform, fun h => absurd h (by omega), fun h => absurd h (by omega)⟩

/-- Whatever a byte emits from a good assembler fits its byte form. -/
theorem AsmEmission.fitsByteForm {p : Params} {a : Assembler} {b : Byte} {r : Raw} (hi : a.Inv) (hfit : a.FitsTable p)
    (h : AsmEmission p a b r) : FitsByteForm p r := by
  cases h with
  | status hb hlen => exact zext24_fitsByteForm (by rw [definedLength_cvStatus hb, hlen])
  | oneByte hb => exact zext24_fitsByteForm (definedLength_sysOneByte hb)
  | last _ h1 => exact takeData_fitsByteForm b hi hfit h1
  | restart _ hps hlen =>
    exact takeData_fitsByteForm b (startCommand_inv a hps (.inr (.inl rfl)))
      (startCommand_fitsTable a (.inr hlen.symm)) rfl

/-- Settles O60: the length relation is an invariant beside the assembler's own, and it sizes what is emitted. -/
theorem emittedCommandsFitTheirByteForm : Obligations.EmittedCommandsFitTheirByteForm := by
  refine ⟨Assembler.reset_fitsTable _, fun s t hi hfit h => ?_, fun i s t hi hfit h he => ?_⟩
  · have hboth : t.asm.Inv ∧ t.asm.FitsTable t.params :=
      step_keeps (P := fun s => s.asm.Inv ∧ s.asm.FitsTable s.params) (fun _ _ _ => id) (fun _ => id)
        (fun _ _ _ hs h => ⟨exec_asmInv hs.1 h, exec_fitsTable hs.1 hs.2 h⟩) ⟨hi, hfit⟩ h
    exact hboth.2
  · obtain ⟨b, hb⟩ := exec_emitted h he
    exact hb.fitsByteForm hi hfit

/-! The writers of a unit's fields -/

@[simp] theorem push_asm (w : EventWord) (s : State) : (push w s).1.asm = s.asm := by
  rcases push_cases w s with ⟨-, e⟩ | ⟨-, -, e⟩ | ⟨-, -, e⟩ <;> rw [e] <;> simp

@[simp] theorem push_arb (w : EventWord) (s : State) : (push w s).1.arb = s.arb := by
  rcases push_cases w s with ⟨-, e⟩ | ⟨-, -, e⟩ | ⟨-, -, e⟩ <;> rw [e] <;> simp

/-- Of the operations but TOP_RESET, those of `ASM.in` alone write the assembler (R14) and ARB_SAMPLE alone the arbiter's
pair (R28). -/
theorem exec_asm_arb_eq {i : Instr} {s t : State} (h : exec i s = .next t) (hne : i ≠ .topReset) :
    (i.port ≠ .asmIn → t.asm = s.asm) ∧ ((∀ u b, i ≠ .arbSample u b) → t.arb = s.arb) := by
  cases exec_next h with
  | reset => exact absurd rfl hne
  | feed _ b hp => exact ⟨fun hn => absurd hp hn, fun _ => by rw [asmFeed_frame]⟩
  | ring _ _ hr => rw [hr.frame]; exact ⟨fun _ => rfl, fun _ => rfl⟩
  | topStatus => exact ⟨fun _ => rfl, fun _ => rfl⟩
  | eqPush w => exact ⟨fun _ => push_asm w s, fun _ => push_arb w s⟩
  | eqPop _ h =>
    rcases execEqPop_next h with ⟨-, rfl⟩ | ⟨-, -, rfl⟩ | ⟨-, -, w, -, rfl⟩ <;> exact ⟨fun _ => rfl, fun _ => rfl⟩
  | eqPushBack _ h =>
    rcases execEqPushBack_next h with ⟨-, rfl⟩ | ⟨-, rfl⟩ <;> exact ⟨fun _ => rfl, fun _ => rfl⟩
  | eqStatus => exact ⟨fun _ => rfl, fun _ => rfl⟩
  | arbSample u b _ h =>
    refine ⟨fun _ => ?_, fun hn => absurd rfl (hn u b)⟩
    rcases execArbSample_cases u b s with ⟨-, -, e⟩ | ⟨-, ⟨-, e⟩ | ⟨-, e⟩⟩ <;> rw [e] at h <;> cases h <;> rfl
  | arbOutcome => exact ⟨fun _ => rfl, fun _ => rfl⟩

/-- An operation that is neither TOP_RESET nor a RingBuffer operation leaves the rings alone (R139). -/
theorem exec_rings_eq {i : Instr} {s t : State} (h : exec i s = .next t) (hne : i ≠ .topReset)
    (hring : i.ringOf? = none) : t.rings = s.rings := by
  rcases exec_rings h with ⟨hreset, -⟩ | hr | ⟨inst, hinst, -⟩
  · exact absurd hreset hne
  · exact hr
  · rw [hring] at hinst; cases hinst

/-- Settles O29: what an operation writes, by unit. -/
theorem unitFieldsHaveTheirOwnWriters : Obligations.UnitFieldsHaveTheirOwnWriters := by
  intro i s t h hne
  obtain ⟨hasm, harb⟩ := exec_asm_arb_eq h hne
  exact ⟨hasm, harb, exec_rings_eq h hne⟩

end Sys2Proof.Machine

/-! PROOF. The statements on the storage: a ring as a queue of bytes, and no read of a location that has not been written
(20_memory.md R40, R48). -/

namespace Sys2Proof.Machine

/-! A ring as a queue of bytes -/

/-- An operation that replaces one ring and answers relates what that ring holds before and after as the old ring and the
new one are related; every other ring holds what it held. -/
theorem State.RingsInv.contents_setRing {s : State} (h : s.RingsInv) {inst : Nat} (hi : inst < s.params.numRb) {x : Ring}
    (resp : Response) (j : Nat) {R : List Byte → List Byte → Prop}
    (hR : R (ringContents s.params (s.ring inst)) (ringContents s.params x)) :
    let t := (s.setRing inst x).respond resp
    if inst = j then R (ringContents s.params (s.ring j)) (ringContents t.params (t.ring j))
    else ringContents t.params (t.ring j) = ringContents s.params (s.ring j) := by
  simp only [State.respond_params, State.setRing_params, State.respond_ring]
  split
  · next e =>
    subst e
    rwa [State.ring_setRing_same x (h.count.symm ▸ hi)]
  · next e => rw [State.ring_setRing_other x (Ne.symm e)]

/-- Operations that write no ring change nothing that a ring holds. -/
theorem exec_ringContents_eq {i : Instr} {s t : State} (h : exec i s = .next t) (hne : i ≠ .topReset)
    (hring : i.ringOf? = none) (j : Nat) : ringContents t.params (t.ring j) = ringContents s.params (s.ring j) := by
  rw [(exec_host h).params, State.ring, exec_rings_eq h hne hring, State.ring]

/-- Bytes read of a good ring are the oldest it holds, at most as many as asked for. -/
theorem ringBytes_min_eq {p : Params} {r : Ring} {n : Nat} {out : List Byte} (h : r.Inv p)
    (ho : ringBytes p r (min n (toread p r)) = some out) : out = (ringContents p r).take n := by
  rw [ringBytes_eq h (Nat.min_le_right ..), ← ringContents_length h, ← List.take_eq_take_min] at ho
  exact (Option.some.inj ho).symm

/-- Bytes dropped of a good ring are the oldest it holds, at most as many as asked for. -/
theorem ringContents_ringDrop_min {p : Params} {r : Ring} (hp : p.WF) (h : r.Inv p) (n : Nat) :
    ringContents p (ringDrop p r (min n (toread p r))) = (ringContents p r).drop n := by
  rw [ringContents_ringDrop hp h (Nat.min_le_right ..), ← ringContents_length h, ← List.drop_eq_drop_min]

/-- Settles O38, by outcome of a RingBuffer operation: bytes put come after those held, bytes dropped are the oldest, and
bytes read are a prefix. -/
theorem ringIsAFifoOfBytes : Obligations.RingIsAFifoOfBytes := by
  intro i s t hs h hne hf j hj
  by_cases hring : i.ringOf? = none
  · have hsame := exec_ringContents_eq h hne hring j
    cases i <;> first | exact hsame | cases hring
  · have hp := hs.params
    cases exec_ringNext hring h with
    | write inst data hi hl =>
      exact hs.contents_setRing hi _ j (R := fun before after => after = before ++ data.take _)
        (ringContents_ringPut hp (hs.ring hi) (by rw [List.length_take]; omega))
    | window inst hi =>
      exact Eq.mp (ite_self (c := inst = j) _) (hs.contents_setRing hi _ j (R := fun before after => after = before) rfl)
    | commit inst data hi hl hlen =>
      exact hs.contents_setRing hi _ j (R := fun before after => after = before ++ data)
        (ringContents_ringPut hp (hs.ring hi) (Nat.le_trans hlen (writeRun_le_towrite (hs.ring hi))))
    | read inst n out hi ho =>
      exact hs.contents_setRing hi _ j (R := fun before after => out = before.take n.toNat ∧ after = before.drop n.toNat)
        ⟨ringBytes_min_eq (hs.ring hi) ho, ringContents_ringDrop_min hp (hs.ring hi) n.toNat⟩
    | consume inst k hi hk =>
      exact hs.contents_setRing hi _ j (R := fun before after => after = before.drop k.toNat)
        (ringContents_ringDrop hp (hs.ring hi) hk)
    | peek inst n out hi ho => exact ⟨rfl, fun e => e ▸ ringBytes_min_eq (hs.ring hi) ho⟩
    | readWindow inst out hi ho =>
      refine ⟨rfl, fun e => e ▸ ?_⟩
      rw [ringBytes_eq (hs.ring hi) (readRun_le_toread (hs.ring hi))] at ho
      exact Option.some.inj ho ▸ List.take_prefix ..
    | towrite => rfl
    | toread => rfl
    | status => rfl
    | illegal => cases hf
    | writeLocked => cases hf
    | commitNotLocked => cases hf
    | commitOversize => cases hf
    | consumeOversize => cases hf

/-! Unwritten storage -/

/-- A transaction stops the machine only where the operation it decodes to does. -/
theorem perform_fault {a : Agent} {tx : Transaction} {u : State} {f : Fault} (h : perform a tx u = .fault f) :
    ∃ i, exec i u = .fault f := by
  unfold perform at h
  split at h
  · cases h
  · split at h
    · cases h
    · split at h
      · cases h
      · next i _ => exact ⟨i, h⟩

theorem onNext_fault {g : State → State} {r : Result} {f : Fault} (h : onNext g r = .fault f) : r = .fault f := by
  cases r with
  | next t => cases h
  | fault => exact h
  | refused => cases h

/-- An item stops the machine only where one operation does, with some items pending. -/
theorem runIssue_fault {a : Agent} {x : Issue} {u : State} {f : Fault} (h : runIssue a x u = .fault f) :
    ∃ i ps, exec i (u.setPending ps) = .fault f := by
  cases x with
  | op r =>
    obtain ⟨i, hi⟩ := perform_fault h
    exact ⟨i, u.pending, hi⟩
  | feedStream bytes =>
    cases bytes with
    | nil => cases h
    | cons b bs =>
      obtain ⟨i, hi⟩ := perform_fault h
      exact ⟨i, _, hi⟩
  | drain inst n =>
    obtain ⟨i, hi⟩ := perform_fault (onNext_fault h)
    exact ⟨i, u.pending, hi⟩

/-- A step stops the machine only where one operation does, in a state of the same block. -/
theorem step_fault {s : State} {f : Fault} (h : step s = .fault f) : ∃ i u, SameBlock s u ∧ exec i u = .fault f := by
  unfold step at h
  split at h
  · cases h
  · next turn turns _ =>
    cases turn with
    | resetInput => cases h
    | agent a =>
      simp only [runTurn, runAgent] at h
      split at h
      · cases h
      · next issue rest _ =>
        obtain ⟨i, ps, hi⟩ := runIssue_fault h
        exact ⟨i, ((s.setSchedule turns).setPending rest).setPending ps, rfl, hi⟩

/-- Settles O58: a step that stops would run an operation from a good state, and from there every operation completes. -/
theorem unwrittenStorageIsNeverRead : Obligations.UnwrittenStorageIsNeverRead := by
  intro s f hrings hqueue h
  obtain ⟨i, u, hu, hfault⟩ := step_fault h
  have hurings : u.RingsInv := hrings.congr hu.params (congrArg State.rings hu :)
  have huqueue : u.QueueInv := hu ▸ ⟨hqueue.params, hqueue.queue⟩
  obtain ⟨t, ht⟩ := everyOperationCompletes i u hurings huqueue
  cases hfault.symm.trans ht

end Sys2Proof.Machine

/-! PROOF. The statements on encoding and decoding, on the steps of requests and pseudo-operations, and on the MidiCommand
view (30_encoding.md R53 to R71). -/

namespace Sys2Proof.Machine

/-! Requests -/

/-- A request decodes to the operation of its opcode, when it is on that operation's port (R68). -/
theorem decode_op_eq_ok {r : Request} {i : Instr} :
    decode (.op r) = .ok i ↔ decodeOpcode r.opcode r.operands = some i ∧ i.port = r.port := by
  simp only [decode, decodeRequest]
  split
  · next h => simp [h]
  · next j h =>
    split <;> next hp => simpa [h] using fun e : j = i => e ▸ hp

/-- A transaction fails to decode exactly when it is no operation. -/
theorem exists_decode_error_iff {tx : Transaction} : (∃ e, decode tx = .error e) ↔ ¬ ∃ i, decode tx = .ok i := by
  cases decode tx <;> simp

/-- The opcode and operands of an operation's request give the operation, and the request is on its port (R67). -/
theorem decodeOpcode_of_encode {i : Instr} {r : Request} (h : encode i = .op r) :
    decodeOpcode r.opcode r.operands = some i ∧ i.port = r.port := by
  cases i <;> cases h <;> exact ⟨rfl, rfl⟩

/-- The opcode map gives an operation only to its own opcode (R67). -/
theorem encode_of_decodeOpcode {opcode : Byte} {o : Operands} {i : Instr} (h : decodeOpcode opcode o = some i) :
    ∃ o', encode i = .op { port := i.port, opcode := opcode, operands := o' } := by
  have hop : BitVec.ofNat 8 opcode.toNat = opcode := BitVec.ofNat_toNat 8 opcode
  unfold decodeOpcode at h
  split at h <;> cases h
  all_goals
    next hcode =>
      rw [hcode] at hop
      subst hop
      exact ⟨_, rfl⟩

/-- The opcode map is defined on the nineteen opcodes of R67 and no other. -/
theorem decodeOpcode_eq_none_iff {opcode : Byte} {o : Operands} : decodeOpcode opcode o = none ↔
    opcode.toNat ∉ [0x01, 0x02, 0x10, 0x20, 0x21, 0x22, 0x23, 0x28, 0x29, 0x2A, 0x2B, 0x2C, 0x2D, 0x30, 0x38, 0x39,
      0x3A, 0x40, 0x41] := by
  unfold decodeOpcode
  split <;> simp_all

/-- Settles O3: a request is an operation exactly through the opcode map and the port. -/
theorem requestDecodingIsExact : Obligations.RequestDecodingIsExact := by
  intro r
  refine ⟨fun i h => ?_, ?_, decodeOpcode_eq_none_iff⟩
  · obtain ⟨hop, hport⟩ := decode_op_eq_ok.mp h
    exact ⟨hport, hport ▸ encode_of_decodeOpcode hop⟩
  · simp only [exists_decode_error_iff, decode_op_eq_ok]

/-! MIDI bytes -/

/-- A byte is its two nibbles. -/
theorem nibbles_append (b : Byte) : b.extractLsb' 4 4 ++ b.extractLsb' 0 4 = b :=
  (BitVec.extractLsb'_append_extractLsb'_eq_extractLsb' rfl).trans BitVec.extractLsb'_eq_self

/-- The high nibble of a byte, as a number. -/
theorem highNibble_toNat (b : Byte) : (b.extractLsb' 4 4).toNat = b.toNat / 16 := by
  simp [Nat.shiftRight_eq_div_pow]
  omega

/-- A byte below 0x80 is a clear bit 7 and its seven value bits (R53). -/
theorem dataBits_append {b : Byte} (h : b.toNat ≤ 0x7F) : 0#1 ++ b.extractLsb' 0 7 = b := by
  have hbit : b.extractLsb' 7 1 = 0#1 := by
    apply BitVec.eq_of_toNat_eq
    simp [Nat.shiftRight_eq_div_pow]
    omega
  rw [← hbit]
  exact (BitVec.extractLsb'_append_extractLsb'_eq_extractLsb' rfl).trans BitVec.extractLsb'_eq_self

/-- The row of a system byte stands for 0xF with the low nibble after it (R53). -/
theorem encode_decodeSystemByte : ∀ low : BitVec 4, encode (decodeSystemByte low) = .midiByte (0xF#4 ++ low) := by decide

/-- The row of a byte stands for that byte: a data byte, or the class nibble with the channel or the low nibble after it
(R53, R55). -/
theorem encode_decodeMidiByte (b : Byte) : encode (decodeMidiByte b) = .midiByte b := by
  have hb : BitVec.ofNat 4 (b.extractLsb' 4 4).toNat ++ b.extractLsb' 0 4 = b := by
    rw [BitVec.ofNat_toNat, BitVec.setWidth_eq, nibbles_append]
  unfold decodeMidiByte
  split
  case h_8 h =>
    rw [h] at hb
    rw [encode_decodeSystemByte, hb]
  case h_9 =>
    simp only [imp_false, highNibble_toNat] at *
    exact congrArg Transaction.midiByte (dataBits_append (by omega))
  all_goals
    next h =>
      rw [h] at hb
      exact congrArg Transaction.midiByte hb

/-- The byte that a row stands for has that row: a status byte keeps its class in the high nibble and its channel in the low
one (R55). -/
theorem decodeMidiByte_of_encode {i : Instr} {b : Byte} (h : encode i = .midiByte b) : decodeMidiByte b = i := by
  have data : ∀ v : BitVec 7, decodeMidiByte (0#1 ++ v) = .midiData v := by decide
  cases i <;> simp only [encode, Transaction.midiByte.injEq, reduceCtorEq] at h <;> subst h
  case midiData v => exact data v
  case midiCvNoteOff | midiCvNoteOn | midiCvPolyPressure | midiCvControlChange | midiCvProgramChange |
      midiCvChannelPressure | midiCvPitchBend =>
    rw [decodeMidiByte, BitVec.extractLsb'_append_eq_left, BitVec.extractLsb'_append_eq_right]
    rfl
  all_goals rfl

/-- A MIDI row is that of the byte it stands for, and of no other. -/
theorem decodeMidiByte_eq_iff {b : Byte} {i : Instr} : decodeMidiByte b = i ↔ encode i = .midiByte b :=
  ⟨fun h => h ▸ encode_decodeMidiByte b, decodeMidiByte_of_encode⟩

/-- Settles O1, by the form of the encoding: a request or a MIDI byte. -/
theorem decodeOfEncode : Obligations.DecodeOfEncode := by
  intro i
  cases h : encode i with
  | op r => exact decode_op_eq_ok.mpr (decodeOpcode_of_encode h)
  | midiByte b => exact congrArg Except.ok (decodeMidiByte_of_encode h)

/-- Settles O4: each word is the encoding of its operation. -/
theorem listedWordsDecode : Obligations.ListedWordsDecode :=
  ⟨decodeOfEncode (.rbWrite 0 _), decodeOfEncode (.rbRead 0 2), decodeOfEncode (.asmFeed 0x90), decodeOfEncode .eqPushBack,
    decodeOfEncode (.arbSample true false), decodeOfEncode .topReset, decodeOfEncode (.midiCvNoteOn 3),
    decodeOfEncode .midiSysF8⟩

/-- Settles O18: the MIDI row of a byte stands for that byte, so both operations bring it to the assembler. -/
theorem asmFeedIsTheMidiRowOfItsByte : Obligations.AsmFeedIsTheMidiRowOfItsByte := by
  intro b s
  rw [exec_asmFeed, exec_of_encode_midiByte (encode_decodeMidiByte b)]

/-- 0xF0 opens a bracket. -/
theorem byteClass_sysexStart_iff {b : Byte} : byteClass b = .sysexStart ↔ b = 0xF0 := by
  rw [← BitVec.toNat_inj]
  unfold byteClass
  repeat' split
  all_goals simp
  all_goals omega

/-- 0xF7 closes a bracket. -/
theorem byteClass_sysexEnd_iff {b : Byte} : byteClass b = .sysexEnd ↔ b = 0xF7 := by
  rw [← BitVec.toNat_inj]
  unfold byteClass
  repeat' split
  all_goals simp
  all_goals omega

/-- 0xF1 to 0xF6 and 0xF8 to 0xFF are one-byte system messages. -/
theorem byteClass_sysOneByte_iff {b : Byte} :
    byteClass b = .sysOneByte ↔ (0xF1 ≤ b.toNat ∧ b.toNat ≤ 0xF6) ∨ 0xF8 ≤ b.toNat := by
  unfold byteClass
  repeat' split
  all_goals simp
  all_goals omega

/-- A byte is data exactly when its bit 7 is clear. -/
theorem and_0x80_eq_zero_iff : ∀ {b : Byte}, b &&& 0x80 = 0 ↔ b.toNat ≤ 0x7F := by decide

/-- Settles O2: a row is that of the byte it encodes to, and the classes are given by their bounds. -/
theorem everyByteHasItsMidiRow : Obligations.EveryByteHasItsMidiRow := by
  intro b
  simp only [decodeMidiByte_eq_iff, byteClass_sysexStart_iff, byteClass_sysexEnd_iff, byteClass_cvStatus_iff,
    byteClass_sysOneByte_iff, and_0x80_eq_zero_iff, ← byteClass_data_iff]
  refine ⟨encode_decodeMidiByte b, ⟨fun h => ⟨_, congrArg _ (dataBits_append (byteClass_data_iff.mp h))⟩, ?_⟩, ?_⟩
  · rintro ⟨v, h⟩
    obtain rfl := Transaction.midiByte.inj h
    exact byteClass_data v
  · simp [encode, eq_comm]

/-! The steps of an agent -/

/-- The bytes still to feed stand before what an agent has to do, when there are any (R71). -/
theorem queueBytes_eq (a : Agent) (bytes : List Byte) (ps : List Pending) :
    queueBytes a bytes ps = if bytes = [] then ps else { agent := a, issue := .feedStream bytes } :: ps := by
  cases bytes <;> rfl

/-- Settles O6: the step performs the byte, with the other bytes put back. -/
theorem stepFeedsTheNextStreamByte : Obligations.StepFeedsTheNextStreamByte := by
  intro s a turns b bs rest hs hf hr hm
  rw [step_of_takeFirst hs hf, ← queueBytes_eq]
  exact perform_decoded (tx := .midiByte b) hr hm rfl

/-- Settles O7: the step performs RB_READ, which keeps what agents have to do, and puts the bytes read before it. -/
theorem drainReadsThenFeedsTheBytes : Obligations.DrainReadsThenFeedsTheBytes := by
  intro s t a turns inst n rest hs hf hr hm hread
  have hperform : perform a (.op (drainRequest inst n)) (s.afterTurn turns rest) = .next t :=
    (perform_decoded (tx := .op (drainRequest inst n)) (s := s.afterTurn turns rest) hr hm
      (decodeOfEncode (.rbRead inst n))).trans hread
  have hpending : t.pending = rest := (exec_host hread).pending
  rw [step_of_takeFirst hs hf, runIssue, hperform, ← queueBytes_eq]
  simp only [onNext, hpending, State.setPending]

/-! ILLEGAL_OP -/

/-- Rejecting an operation with ILLEGAL_OP is its effect (R121). -/
theorem illegalOp_reject (s : State) : IllegalOp s (reject .illegalOp s) := ⟨rfl, fun _ => mem_insertFault⟩

/-- A transaction that may be issued and does not decode is rejected (R68). -/
theorem perform_undecoded {a : Agent} {tx : Transaction} {s : State} {e : Reject} (hr : s.resetDone = true)
    (hm : mayIssue s.binding a tx.port = true) (hd : decode tx = .error e) :
    perform a tx s = .next (reject .illegalOp s) := by
  simp [perform, hr, hm, hd]

/-- Settles O9: the step performs the request, which is rejected. -/
theorem undecodedRequestIsIllegalOp : Obligations.UndecodedRequestIsIllegalOp := by
  intro s a turns r rest e hs hf hr hm hd
  refine ⟨_, ?_, illegalOp_reject _⟩
  rw [step_of_takeFirst hs hf]
  exact perform_undecoded (tx := .op r) hr hm hd

/-- An operation is ill-formed by the ring it names or by the kind of its word (R68). -/
theorem wellFormed_eq_false_iff {i : Instr} {p : Params} : i.wellFormed p = false ↔
    (∃ inst, i.ringOf? = some inst ∧ p.numRb ≤ inst) ∨ ∃ w, i.pushedWord? = some w ∧ eventKind w = kindNone := by
  unfold Instr.wellFormed
  rw [Bool.and_eq_false_iff]
  refine or_congr ?_ ?_
  · cases i.ringOf? <;> simp
  · cases i.pushedWord? <;> simp [eventKind, kindNone]

/-- Every operation on a ring that does not exist is rejected (R68, R121). -/
theorem exec_ring_illegal {i : Instr} {s : State} {inst : Nat} (hi : i.ringOf? = some inst) (h : s.params.numRb ≤ inst) :
    exec i s = .next (reject .illegalOp s) := by
  cases i <;> cases hi <;> exact if_neg (Nat.not_lt.mpr h)

/-- Pushing a word of kind None is rejected (R110, R121). -/
theorem exec_eqPush_none {w : EventWord} (h : eventKind w = kindNone) (s : State) :
    exec (.eqPush w) s = .next (reject .illegalOp s) := by
  have hpush : push w s = (raise .illegalOp s, false) := if_pos h
  simp only [exec, execEqPush_eq, hpush]
  rfl

/-- Settles O16: both ill-formed operations are rejected. -/
theorem illFormedOperationIsIllegalOp : Obligations.IllFormedOperationIsIllegalOp := by
  intro i s h
  refine ⟨_, ?_, illegalOp_reject s⟩
  rcases wellFormed_eq_false_iff.mp h with ⟨inst, hi, hinst⟩ | ⟨w, hi, hw⟩
  · exact exec_ring_illegal hi hinst
  · cases i <;> cases hi
    exact exec_eqPush_none hw s

/-! The MidiCommand view -/

/-- A raw command is its three bytes (R59). -/
theorem rawBytes_append (r : Raw) : rawData1 r ++ rawData0 r ++ rawStatus r = r := by
  have hdata : rawData1 r ++ rawData0 r = r.extractLsb' 8 16 := BitVec.extractLsb'_append_extractLsb'_eq_extractLsb' rfl
  rw [hdata]
  exact (BitVec.extractLsb'_append_extractLsb'_eq_extractLsb' rfl).trans BitVec.extractLsb'_eq_self

/-- Settles O59: the bytes make up the command, and its length is that of its status byte's class. -/
theorem midiCommandViewOfARawCommand : Obligations.MidiCommandViewOfARawCommand := by
  intro p r status
  refine ⟨rfl, rfl, rfl, (rawBytes_append r).symm, rfl, rfl, fun hlo hhi => ?_, fun hlo hne => ?_⟩
  · have hlen : definedLength p (rawStatus r) = some (lenOf p status) :=
      definedLength_cvStatus (byteClass_cvStatus_iff.mpr ⟨hlo, hhi⟩)
    simp [byteFormLength, data1Valid, hlen]
  · have hne' : status.toNat ≠ 0xF7 := fun h => hne (BitVec.eq_of_toNat_eq h)
    have hclass : byteClass status = .sysOneByte := byteClass_sysOneByte_iff.mpr (by omega)
    have hlen : definedLength p (rawStatus r) = some 0 := definedLength_sysOneByte hclass
    simp [byteFormLength, data1Valid, hlen]

end Sys2Proof.Machine

/-! PROOF. The statements on the assembler: what a byte at `ASM.in` writes and emits in each case of ASM_FEED, and the shape
and the source of what it emits (40_assembler.md R73 to R85). -/

namespace Sys2Proof.Machine

/-! The cases of ASM_FEED -/

section
variable {b : Byte} {s : State}

/-- ASM_FEED and the MIDI rows alike bring their byte to `ASM.in` (R73). -/
theorem Feeds.exec_eq {i : Instr} (h : Feeds i b) (s : State) : exec i s = .next (asmFeed b s) := by
  rcases h with rfl | h
  · exact exec_asmFeed b s
  · exact exec_of_encode_midiByte h s

/-- Inside a bracket the byte's class does not matter (R75). -/
theorem asmFeed_inBracket (h : s.asm.awaitingSysexEnd = true) : asmFeed b s = asmInBracket b s := if_pos h

theorem asmFeed_sysexStart (h : s.asm.awaitingSysexEnd = false) (hb : byteClass b = .sysexStart) :
    asmFeed b s = asmSysexStart s := by rw [asmFeed_outside h, hb]

theorem asmFeed_cvStatus (h : s.asm.awaitingSysexEnd = false) (hb : byteClass b = .cvStatus) :
    asmFeed b s = asmStatus b s := by rw [asmFeed_outside h, hb]

theorem asmFeed_sysexEnd (h : s.asm.awaitingSysexEnd = false) (hb : byteClass b = .sysexEnd) :
    asmFeed b s = asmStrayEnd s := by rw [asmFeed_outside h, hb]

theorem asmFeed_sysOneByte (h : s.asm.awaitingSysexEnd = false) (hb : byteClass b = .sysOneByte) :
    asmFeed b s = asmOneByte b s := by rw [asmFeed_outside h, hb]

theorem asmFeed_data (h : s.asm.awaitingSysexEnd = false) (hb : byteClass b = .data) :
    asmFeed b s = asmData b s := by rw [asmFeed_outside h, hb]

/-- A status without data bytes is a whole command (R78). -/
theorem asmStatus_len_zero (h : lenOf s.params b = 0) :
    asmStatus b s = emit (zext24 b) (s.setAsm (startCommand s.asm b 0)) := by
  rw [asmStatus, h]
  rfl

/-- A status with one or two data bytes waits for them (R77). -/
theorem asmStatus_len_one_or_two (h : lenOf s.params b = 1 ∨ lenOf s.params b = 2) :
    asmStatus b s = noEmission (s.setAsm (startCommand s.asm b (BitVec.ofNat 8 (lenOf s.params b)))) := by
  rcases h with h | h <;> rw [asmStatus, h] <;> rfl

/-- A status with more data bytes than two waits for none (R78). -/
theorem asmStatus_len_above_two (h : 2 < lenOf s.params b) :
    asmStatus b s = noEmission (s.setAsm (startCommand s.asm b 0)) := by
  unfold asmStatus
  split
  case h_4 => rfl
  all_goals omega

/-- The last data byte completes the command (R79). -/
theorem asmAccept_last (h : s.asm.pendingLenRemaining = 1) :
    asmAccept b s = emit (takeData s.asm b).accumulator (s.setAsm (takeData s.asm b)) := by
  have hlast : (takeData s.asm b).pendingLenRemaining = 0 := by simp [takeData, h]
  exact if_pos hlast

/-- A data byte before the last does not (R79). -/
theorem asmAccept_not_last (h : s.asm.pendingLenRemaining ≠ 1) :
    asmAccept b s = noEmission (s.setAsm (takeData s.asm b)) := by
  have hmore : (takeData s.asm b).pendingLenRemaining ≠ 0 := by
    change s.asm.pendingLenRemaining - 1 ≠ 0
    bv_omega
  exact if_neg hmore

/-- A data byte extends the command in flight (R79). -/
theorem asmData_inFlight (h : s.asm.pendingLenRemaining ≠ 0) : asmData b s = asmAccept b s := if_neg h

/-- With none in flight it extends the command that running status restarts (R80). -/
theorem asmData_restart (h : s.asm.pendingLenRemaining = 0) (hr : canRestart s.params s.asm = true) :
    asmData b s = asmAccept b (s.setAsm (startCommand s.asm s.asm.pendingStatus
      (BitVec.ofNat 8 (lenOf s.params s.asm.pendingStatus)))) := by rw [asmData, if_pos h, if_pos hr]

/-- With none to restart it is dropped (R80). -/
theorem asmData_dropped (h : s.asm.pendingLenRemaining = 0) (hr : ¬ canRestart s.params s.asm = true) :
    asmData b s = noEmission s := by rw [asmData, if_pos h, if_neg hr]

end

/-! The two outcomes of a byte -/

/-- No emission is the response without one, and nothing else (R73). -/
theorem silent_noEmission (s : State) (a : Assembler) : Silent s (noEmission (s.setAsm a)) a := rfl

/-- A word put is stored (R103). -/
theorem stores_queuePut {p : Params} (hp : p.WF) (q : EventQueue) (w : EventWord) : Stores p q (queuePut p q w) w := by
  obtain ⟨-, -, ⟨hd, hd'⟩, -⟩ := hp
  exact ⟨rfl, modAdd_toNat (by omega) hd', fun a => Memory.read_write ..⟩

/-- An emission pushes the command's event, which the queue stores or, when full, refuses (R84, R103). -/
theorem emits_emit {s : State} (hp : s.params.WF) (a : Assembler) (r : Raw) : Emits s (emit r (s.setAsm a)) a r := by
  rcases emit_cases r (s.setAsm a) with ⟨hfull, e⟩ | ⟨hroom, e⟩ <;> rw [e]
  · exact ⟨false, rfl, .inr ⟨rfl, hfull, rfl, fun _ => mem_insertFault⟩⟩
  · exact ⟨true, rfl, .inl ⟨rfl, hroom, stores_queuePut hp s.queue _, rfl⟩⟩

/-! The shape of what is emitted -/

/-- A status byte that is no bracket byte in bits [7:0], and data bytes above it (R85). -/
def WellShaped (r : Raw) : Prop :=
  0x80 ≤ (rawStatus r).toNat ∧ rawStatus r ≠ 0xF0 ∧ rawStatus r ≠ 0xF7 ∧ (rawData0 r).toNat ≤ 0x7F ∧
  (rawData1 r).toNat ≤ 0x7F

/-- The bytes that start a command, a channel-voice status or a one-byte system message, are no bracket bytes. -/
theorem statusByte_bounds {b : Byte} (h : byteClass b = .cvStatus ∨ byteClass b = .sysOneByte) :
    0x80 ≤ b.toNat ∧ b ≠ 0xF0 ∧ b ≠ 0xF7 := by
  rw [byteClass_cvStatus_iff, byteClass_sysOneByte_iff] at h
  bv_omega

/-- A status byte alone is well-shaped. -/
theorem zext24_wellShaped {b : Byte} (h : byteClass b = .cvStatus ∨ byteClass b = .sysOneByte) :
    WellShaped (zext24 b) := by
  obtain ⟨hlo, h0, h7⟩ := statusByte_bounds h
  rw [WellShaped, rawStatus_zext24, rawData0_zext24, rawData1_zext24]
  exact ⟨hlo, h0, h7, by decide, by decide⟩

/-- So is a command in flight of a good assembler with one more data byte. -/
theorem takeData_wellShaped {a : Assembler} {b : Byte} (hi : a.Inv) (hr : a.pendingLenRemaining ≠ 0)
    (hb : byteClass b = .data) : WellShaped (takeData a b).accumulator := by
  obtain ⟨hcv, -, -, hd⟩ := hi.in_flight hr
  obtain ⟨hlo, h0, h7⟩ := statusByte_bounds (.inl hcv)
  rw [byteClass_data_iff] at hb hd
  obtain ⟨hs, ⟨-, e0, e1⟩ | ⟨-, -, e0, e1⟩⟩ := takeData_fields (b := b) hi hr
  · rw [WellShaped, hs, e0, e1]
    exact ⟨hlo, h0, h7, hb, by decide⟩
  · rw [WellShaped, hs, e0, e1]
    exact ⟨hlo, h0, h7, hd, hb⟩

/-- Whatever a byte emits from a good assembler is well-shaped. -/
theorem AsmEmission.wellShaped {p : Params} {a : Assembler} {b : Byte} {r : Raw} (hi : a.Inv) (h : AsmEmission p a b r) :
    WellShaped r := by
  cases h with
  | status hb => exact zext24_wellShaped (.inl hb)
  | oneByte hb => exact zext24_wellShaped (.inr hb)
  | last hb h1 => exact takeData_wellShaped hi (by rw [h1]; decide) hb
  | restart hb hps =>
    have hone : (startCommand a a.pendingStatus 1).pendingLenRemaining = 1 := rfl
    exact takeData_wellShaped (startCommand_inv a hps (.inr (.inl rfl))) (by rw [hone]; decide) hb

/-- Settles O27: what an operation emits is one of the commands of `AsmEmission`. -/
theorem emittedCommandsAreWellShaped : Obligations.EmittedCommandsAreWellShaped := by
  intro i s t hi h he
  obtain ⟨b, hb⟩ := exec_emitted h he
  exact hb.wellShaped hi

/-! Each case's effect -/

/-- Settles O19: the byte is 0xF7, which clears the flag, or another, and then the set flag stays. -/
theorem bracketDiscardsEveryByte : Obligations.BracketDiscardsEveryByte := by
  intro i b s hf hopen
  refine ⟨_, hf.exec_eq s, ?_⟩
  rw [asmFeed_inBracket hopen, asmInBracket]
  split
  · next hb =>
    rw [decide_eq_false (not_not_intro hb)]
    exact silent_noEmission s _
  · next hb =>
    rw [decide_eq_true hb, ← hopen]
    exact silent_noEmission s s.asm

/-- Settles O20: 0xF0 is the byte that opens a bracket, whichever operation brings it. -/
theorem sysexStartOpensABracket : Obligations.SysexStartOpensABracket := by
  intro i s hf hout
  refine ⟨_, hf.exec_eq s, ?_⟩
  rw [asmFeed_sysexStart hout (byteClass_sysexStart_iff.mpr rfl)]
  exact silent_noEmission s _

/-- Settles O21: outside a bracket 0xF7 is the stray end. -/
theorem straySysexEndHasNoEffect : Obligations.StraySysexEndHasNoEffect := by
  intro i s hf hout
  refine ⟨_, hf.exec_eq s, ?_⟩
  rw [asmFeed_sysexEnd hout (byteClass_sysexEnd_iff.mpr rfl)]
  exact silent_noEmission s s.asm

/-- The fields at the start of a command, when no bracket is open (R77, R78). -/
theorem startCommand_outside {a : Assembler} (h : a.awaitingSysexEnd = false) (b : Byte) (n : BitVec 8) :
    startCommand a b n = { awaitingSysexEnd := false, pendingStatus := b, pendingLenRemaining := n, offset := 8,
                           accumulator := b.setWidth 24 } := by
  rw [← h]
  rfl

/-- Settles O22: the status starts a command that waits for its data bytes. -/
theorem statusByteStartsACommand : Obligations.StatusByteStartsACommand := by
  intro i b s hf hout hlo hhi hlen
  refine ⟨_, hf.exec_eq s, ?_⟩
  rw [asmFeed_cvStatus hout (byteClass_cvStatus_iff.mpr ⟨hlo, hhi⟩), asmStatus_len_one_or_two hlen,
    startCommand_outside hout]
  exact silent_noEmission s _

/-- Settles O23, by the length: both commands wait for nothing, and only that of length 0 is emitted. -/
theorem zeroAndOverlongStatus : Obligations.ZeroAndOverlongStatus := by
  intro i b s hp hf hout hlo hhi
  have hcv : asmFeed b s = asmStatus b s := asmFeed_cvStatus hout (byteClass_cvStatus_iff.mpr ⟨hlo, hhi⟩)
  refine ⟨fun hlen => ⟨_, hf.exec_eq s, ?_⟩, fun hlen => ⟨_, hf.exec_eq s, ?_⟩⟩
  · rw [hcv, asmStatus_len_zero hlen, startCommand_outside hout]
    exact emits_emit hp _ _
  · rw [hcv, asmStatus_len_above_two hlen, startCommand_outside hout]
    exact silent_noEmission s _

/-- Settles O24, by whether the byte was the last. -/
theorem dataByteExtendsTheCommand : Obligations.DataByteExtendsTheCommand := by
  intro i b s hp hf hout hb hr
  refine ⟨_, hf.exec_eq s, ?_⟩
  rw [asmFeed_data hout (byteClass_data_iff.mpr hb), asmData_inFlight hr]
  refine ⟨fun h1 => ?_, fun h1 => ?_⟩
  · rw [asmAccept_last h1]
    exact emits_emit hp _ _
  · rw [asmAccept_not_last h1]
    exact silent_noEmission s _

/-- The fields after running status restarts the command of `a` and takes in a data byte (R80). -/
theorem takeData_startCommand (a : Assembler) (b : Byte) {n : Nat} (h : n = 1 ∨ n = 2) :
    takeData (startCommand a a.pendingStatus (BitVec.ofNat 8 n)) b =
      { a with accumulator := a.pendingStatus.setWidth 24 ||| (b.setWidth 24 <<< 8), offset := 16,
               pendingLenRemaining := BitVec.ofNat 8 (n - 1) } := by
  rcases h with rfl | rfl <;> simp [takeData, startCommand, zext24]

/-- Settles O25: the restart condition is the model's, and a restarted command takes the byte in as R79 says. -/
theorem dataByteRestartsOrIsDropped : Obligations.DataByteRestartsOrIsDropped := by
  intro i b s hp hf hout hb h0 st restart a
  have hrestart : restart ↔ canRestart s.params s.asm = true := by
    rw [canRestart_iff, byteClass_cvStatus_iff, and_assoc]
  have hdata : asmFeed b s = asmData b s := asmFeed_data hout (byteClass_data_iff.mpr hb)
  refine ⟨_, hf.exec_eq s, fun hr hlen => ?_, fun hr hlen => ?_, fun hr => ?_⟩
  · have ha := takeData_startCommand s.asm b (.inl hlen)
    rw [hdata, asmData_restart h0 (hrestart.mp hr), asmAccept_last (congrArg (BitVec.ofNat 8) hlen), State.setAsm_asm, ha]
    exact emits_emit hp a _
  · have ha := takeData_startCommand s.asm b (.inr hlen)
    have hmore : BitVec.ofNat 8 (lenOf s.params st) ≠ 1 := by rw [hlen]; decide
    rw [hdata, asmData_restart h0 (hrestart.mp hr), asmAccept_not_last hmore, State.setAsm_asm, ha]
    exact silent_noEmission s a
  · rw [hdata, asmData_dropped h0 (fun hc => hr (hrestart.mpr hc))]
    exact silent_noEmission s s.asm

/-- Settles O26: the byte is a one-byte system message, whose emission keeps the assembler. -/
theorem oneByteMessageIsEmitted : Obligations.OneByteMessageIsEmitted := by
  intro i b s hp hf hout hlo hne
  refine ⟨_, hf.exec_eq s, ?_⟩
  rw [asmFeed_sysOneByte hout (byteClass_sysOneByte_iff.mpr (by bv_omega))]
  exact emits_emit hp s.asm _

/-! What emissions depend on -/

/-- Two next states in which the assembler is the same and the same was emitted (R83). -/
def SameEmission (t t' : State) : Prop :=
  t.asm = t'.asm ∧ t.response.emitted = t'.response.emitted ∧ t.response.raw = t'.response.raw

@[simp] theorem emit_emitted (r : Raw) (s : State) : (emit r s).response.emitted = true := by
  rcases emit_cases r s with ⟨-, e⟩ | ⟨-, e⟩ <;> rw [e] <;> rfl

section
variable {s s' : State}

/-- A full queue changes whether a command is accepted, not which command is emitted (R84). -/
theorem sameEmission_emit (r : Raw) (h : s.asm = s'.asm) : SameEmission (emit r s) (emit r s') :=
  ⟨by simpa using h, by simp, by simp⟩

theorem sameEmission_noEmission (h : s.asm = s'.asm) : SameEmission (noEmission s) (noEmission s') := ⟨h, rfl, rfl⟩

theorem sameEmission_asmInBracket (b : Byte) (h : s.asm = s'.asm) : SameEmission (asmInBracket b s) (asmInBracket b s') := by
  unfold asmInBracket
  split
  · exact sameEmission_noEmission (by simp [h])
  · exact sameEmission_noEmission h

theorem sameEmission_asmStatus (b : Byte) (h : s.asm = s'.asm) (hp : s.params = s'.params) :
    SameEmission (asmStatus b s) (asmStatus b s') := by
  unfold asmStatus
  rw [← h, ← hp]
  split
  · exact sameEmission_emit _ rfl
  all_goals exact sameEmission_noEmission rfl

theorem sameEmission_asmAccept (b : Byte) (h : s.asm = s'.asm) : SameEmission (asmAccept b s) (asmAccept b s') := by
  by_cases h1 : s.asm.pendingLenRemaining = 1
  · rw [asmAccept_last h1, asmAccept_last (h ▸ h1), ← h]
    exact sameEmission_emit _ rfl
  · rw [asmAccept_not_last h1, asmAccept_not_last (h ▸ h1), ← h]
    exact sameEmission_noEmission rfl

theorem sameEmission_asmData (b : Byte) (h : s.asm = s'.asm) (hp : s.params = s'.params) :
    SameEmission (asmData b s) (asmData b s') := by
  unfold asmData
  rw [← h, ← hp]
  split
  · split
    · exact sameEmission_asmAccept b rfl
    · exact sameEmission_noEmission h
  · exact sameEmission_asmAccept b h

/-- What a byte emits and leaves in the assembler is given by the assembler and the parameters. -/
theorem sameEmission_asmFeed (b : Byte) (h : s.asm = s'.asm) (hp : s.params = s'.params) :
    SameEmission (asmFeed b s) (asmFeed b s') := by
  unfold asmFeed
  rw [← h]
  split
  · exact sameEmission_asmInBracket b h
  · split
    · exact sameEmission_noEmission (by simp [h])
    · exact sameEmission_asmStatus b h hp
    · exact sameEmission_noEmission h
    · exact sameEmission_emit _ h
    · exact sameEmission_asmData b h hp

end

/-- Settles O28: both states run ASM_FEED of the same byte. -/
theorem emissionDependsOnTheStreamAlone : Obligations.EmissionDependsOnTheStreamAlone := by
  intro i b s s' t t' hf ha hp h h'
  cases (hf.exec_eq s).symm.trans h
  cases (hf.exec_eq s').symm.trans h'
  exact sameEmission_asmFeed b ha hp

end Sys2Proof.Machine

/-! PROOF. The statements on the RingBuffer: what each of its operations answers, writes and leaves alone, its counts, and
the stability of an open write window (41_ring_buffer.md R87 to R101). -/

namespace Sys2Proof.Machine

/-! The outcomes of a RingBuffer operation -/

/-- The outcomes of `RingNext` are taken: with `exec_ringNext`, a RingBuffer operation goes on exactly to them. -/
theorem RingNext.exec_eq {i : Instr} {s t : State} (h : RingNext s i t) : exec i s = .next t := by
  cases h with
  | illegal _ inst hi hinst => exact exec_ring_illegal hi hinst
  | write inst data hi hl => simp [exec, execRbWrite, withInstance, hi, hl]
  | writeLocked inst data hi hl => simp [exec, execRbWrite, withInstance, hi, hl]
  | window inst hi => simp [exec, execRbGetWriteWindow, withInstance, hi]
  | commit inst data hi hl hlen => simp [exec, execRbCommitWrite, withInstance, hi, hl, Nat.not_lt.mpr hlen]
  | commitNotLocked inst data hi hl => simp [exec, execRbCommitWrite, withInstance, hi, hl]
  | commitOversize inst data hi hl hlen => simp [exec, execRbCommitWrite, withInstance, hi, hl, hlen]
  | towrite inst hi => simp [exec, execRbTowrite, withInstance, hi]
  | read inst n out hi ho => simp [exec, execRbRead, withInstance, hi, ho]
  | peek inst n out hi ho => simp [exec, execRbPeek, withInstance, hi, ho]
  | readWindow inst out hi ho => simp [exec, execRbGetReadWindow, withInstance, hi, ho]
  | consume inst k hi hk => simp [exec, execRbConsume, withInstance, hi, Nat.not_lt.mpr hk]
  | consumeOversize inst k hi hk => simp [exec, execRbConsume, withInstance, hi, hk]
  | toread inst hi => simp [exec, execRbToread, withInstance, hi]
  | status inst hi => simp [exec, execRbStatus, withInstance, hi]

/-- There are as many rings as instances. -/
theorem State.RingsInv.lt_length {s : State} (h : s.RingsInv) {inst : Nat} (hi : inst < s.params.numRb) :
    inst < s.rings.length := h.count.symm ▸ hi

/-- An operation that replaces one ring and answers writes nothing else. -/
theorem ringFrame_setRing (s : State) (inst : Nat) (x : Ring) (resp : Response) :
    RingFrame inst s ((s.setRing inst x).respond resp) :=
  ⟨rfl, List.length_set, fun _ hj => State.ring_setRing_other x hj⟩

/-- A rejection by a fault whose flag is the ring's writes that flag, the fault set and the response (R127, R128). -/
theorem ringFaulted_reject {f : BlockFault} {inst : Nat} {s : State} (hf : s.setFlag f = s.setRbFault inst)
    (hi : inst < s.rings.length) : RingFaulted f.code inst s (reject f s) := by
  rw [reject, raise, hf]
  exact ⟨rfl, List.length_set, fun _ hj => State.ring_setRing_other _ hj, State.ring_setRing_same _ hi,
    fun _ => mem_insertFault⟩

section
variable {p : Params} {r : Ring}

/-! Counts and runs -/

/-- The count of R87 in natural-number arithmetic. -/
theorem toread_eq_mod (h : r.Inv p) :
    toread p r = (r.writePos.toNat + p.rbCapacity - r.readPos.toNat) % p.rbCapacity := by
  have hr := h.read_lt
  have hw := h.write_lt
  rw [toread, modSub_eq hw hr]
  split
  · rw [Nat.mod_eq_sub_mod (by omega), Nat.mod_eq_of_lt (by omega)]
    omega
  · rw [Nat.mod_eq_of_lt (by omega)]
    omega

/-- The read window never wraps (R91). -/
theorem readRun_le_end (h : r.Inv p) : r.readPos.toNat + readRun p r ≤ p.rbCapacity := by
  have hr := h.read_lt
  have hw := h.write_lt
  rw [readRun]
  split <;> omega

/-- The status word has the lock at bit 0, the sticky flag at bit 1 and 0 above (R30). -/
theorem rbStatusWord_bits (r : Ring) :
    (rbStatusWord r).getLsbD 0 = r.writeLock ∧ (rbStatusWord r).getLsbD 1 = r.rbFault ∧
    (rbStatusWord r).extractLsb' 2 6 = 0 := by
  rw [rbStatusWord]
  cases r.rbFault <;> cases r.writeLock <;> decide

/-! Bytes read -/

/-- The bytes read are the bytes of the storage from `read_pos` on, wrapping. -/
theorem ringBytes_getElem? {k : Nat} {bs : List Byte} (h : ringBytes p r k = some bs) {j : Nat} (hj : j < bs.length) :
    Memory.read r.storage ((r.readPos.toNat + j) % p.rbCapacity) = bs[j]? :=
  (readCells_getElem h hj).trans (List.getElem?_eq_getElem hj).symm

/-! Bytes stored -/

/-- A ring position advanced by `k`: legal capacities fit its 16 bits (R5, R21). -/
theorem modAdd_rbCapacity_toNat (hp : p.WF) (pos : Pos) (k : Nat) :
    (modAdd pos k p.rbCapacity).toNat = (pos.toNat + k) % p.rbCapacity := by
  obtain ⟨⟨hlo, hhi⟩, -⟩ := hp
  exact modAdd_toNat (by omega) hhi

theorem ringPut_writePos_toNat (hp : p.WF) (r : Ring) (bs : List Byte) :
    (ringPut p r bs).writePos.toNat = (r.writePos.toNat + bs.length) % p.rbCapacity :=
  modAdd_rbCapacity_toNat hp ..

/-- At most as many bytes as the ring can take are each stored at their place from `write_pos` on, wrapping. -/
theorem read_ringPut_inside {bs : List Byte} (hlen : bs.length ≤ towrite p r) {j : Nat} (hj : j < bs.length) :
    Memory.read (ringPut p r bs).storage ((r.writePos.toNat + j) % p.rbCapacity) = bs[j]? := by
  rw [towrite] at hlen
  rw [ringPut_storage, read_writeCells_inside (by omega) hj, List.getElem?_eq_getElem hj]

/-- No other byte changes. -/
theorem read_ringPut_outside {bs : List Byte} {a : Nat}
    (h : ∀ j, j < bs.length → a ≠ (r.writePos.toNat + j) % p.rbCapacity) :
    Memory.read (ringPut p r bs).storage a = Memory.read r.storage a := read_writeCells_outside h

/-! Bytes dropped -/

/-- Dropping bytes writes the two positions. -/
theorem ringDrop_frame (p : Params) (r : Ring) (k : Nat) :
    ringDrop p r k = { r with readPos := (ringDrop p r k).readPos, writePos := (ringDrop p r k).writePos } := by
  unfold ringDrop resetOnEmpty
  split <;> rfl

/-- Advancing `read_pos` by `k` empties the ring exactly when `k` is all it holds. -/
theorem advance_eq_writePos_iff (hp : p.WF) (h : r.Inv p) {k : Nat} (hk : k ≤ toread p r) :
    modAdd r.readPos k p.rbCapacity = r.writePos ↔ k = toread p r := by
  have hempty := toread_empty (advance_inv hp h hk)
  rw [toread_advance hp h hk] at hempty
  rw [← hempty]
  omega

/-- The positions after `k` bytes are dropped: 0 on reset-on-empty, else `read_pos` is `k` further (R96). -/
theorem ringDrop_positions (hp : p.WF) (h : r.Inv p) {k : Nat} (hk : k ≤ toread p r) :
    if p.rbResetOnEmpty = true ∧ k = toread p r ∧ r.writeLock = false then
      (ringDrop p r k).readPos = 0 ∧ (ringDrop p r k).writePos = 0
    else (ringDrop p r k).readPos.toNat = (r.readPos.toNat + k) % p.rbCapacity ∧
      (ringDrop p r k).writePos = r.writePos := by
  simp only [ringDrop, resetOnEmpty, advance_eq_writePos_iff hp h hk]
  split
  · exact ⟨rfl, rfl⟩
  · exact ⟨modAdd_rbCapacity_toNat hp .., rfl⟩

end

/-! The operations of the producer port -/

/-- Settles O30: an open window rejects the bytes; without one those that fit are put. -/
theorem rbWriteStoresWhatFits : Obligations.RbWriteStoresWhatFits := by
  intro inst data s hs hi
  have hlt := hs.lt_length hi
  refine ⟨rfl, fun hl => ?_, fun hl => ?_⟩
  · exact ⟨_, (RingNext.writeLocked inst data hi hl).exec_eq,
      ringFaulted_reject (f := .rbWriteWhileLocked inst) rfl hlt⟩
  · refine ⟨_, (RingNext.write inst data hi hl).exec_eq, ringFrame_setRing .., ?_⟩
    rw [State.respond_ring, State.ring_setRing_same _ hlt]
    intro r r' k
    have hk : (data.take k).length = k := List.length_take_of_le (Nat.min_le_left ..)
    refine ⟨rfl, rfl, ?_, fun j hj => ?_, fun a ha => ?_⟩
    · rw [← hk]
      exact ringPut_writePos_toNat hs.params r _
    · rw [← List.getElem?_take_of_lt hj]
      exact read_ringPut_inside (hk.symm ▸ Nat.min_le_right ..) (hk.symm ▸ hj)
    · exact read_ringPut_outside (hk.symm ▸ ha)

/-- Settles O31: the answered run is the writable one, which neither wraps nor exceeds what can be written. -/
theorem rbGetWriteWindowLocks : Obligations.RbGetWriteWindowLocks := by
  intro inst s hs hi
  have hr := hs.ring hi
  exact ⟨rfl, _, (RingNext.window inst hi).exec_eq, ringFrame_setRing .., State.ring_setRing_same _ (hs.lt_length hi), rfl,
    writeRun_le_end hr, writeRun_le_towrite hr⟩

/-- Settles O32, by the two checks of R94 in their order; bytes that pass them fit, as the run is at most `towrite`. -/
theorem rbCommitWriteClosesTheWindow : Obligations.RbCommitWriteClosesTheWindow := by
  intro inst data s hs hi
  have hlt := hs.lt_length hi
  refine ⟨rfl, fun hl => ?_, fun hl hlen => ?_, fun hl hlen => ?_⟩
  · exact ⟨_, (RingNext.commitNotLocked inst data hi hl).exec_eq,
      ringFaulted_reject (f := .rbCommitNotLocked inst) rfl hlt⟩
  · exact ⟨_, (RingNext.commitOversize inst data hi hl hlen).exec_eq,
      ringFaulted_reject (f := .rbCommitOversize inst) rfl hlt⟩
  · have hfits := Nat.le_trans hlen (writeRun_le_towrite (hs.ring hi))
    refine ⟨_, (RingNext.commit inst data hi hl hlen).exec_eq, ringFrame_setRing .., ?_⟩
    rw [State.respond_ring, State.ring_setRing_same _ hlt]
    exact ⟨rfl, rfl, ringPut_writePos_toNat hs.params _ data, fun j => read_ringPut_inside hfits,
      fun a => read_ringPut_outside⟩

/-! The operations of the consumer port -/

/-- Settles O33: the counts are R87's and the word is R30's. -/
theorem rbCountsAndStatus : Obligations.RbCountsAndStatus := by
  intro inst s hs hi r n
  have hn : toread s.params r = n := toread_eq_mod (hs.ring hi)
  refine ⟨rfl, rfl, rfl, ?_, ?_, _, (RingNext.status inst hi).exec_eq, rbStatusWord_bits r⟩
  · rw [← hn]
    exact (RingNext.toread inst hi).exec_eq
  · rw [← hn]
    exact (RingNext.towrite inst hi).exec_eq

/-- Settles O34: a good ring has written the bytes to return, and the positions after them are those of `ringDrop`. -/
theorem rbReadTakesTheOldestBytes : Obligations.RbReadTakesTheOldestBytes := by
  intro inst n s hs hi
  have hr := hs.ring hi
  have hk := Nat.min_le_right n.toNat (toread s.params (s.ring inst))
  have hbytes := ringBytes_eq hr hk
  have hlen := readCells_length hbytes
  refine ⟨rfl, _, (RingNext.read inst n _ hi hbytes).exec_eq, ringFrame_setRing .., ?_⟩
  rw [State.respond_ring, State.ring_setRing_same _ (hs.lt_length hi)]
  exact ⟨rfl, hlen, fun j hj => ringBytes_getElem? hbytes (hlen.symm ▸ hj), ringDrop_frame ..,
    ringDrop_positions hs.params hr hk⟩

/-- Settles O35: RB_PEEK reads the bytes that RB_READ would. -/
theorem rbPeekChangesNothing : Obligations.RbPeekChangesNothing := by
  intro inst n s hs hi
  have hbytes := ringBytes_eq (hs.ring hi) (Nat.min_le_right n.toNat _)
  exact ⟨rfl, _, (RingNext.peek inst n _ hi hbytes).exec_eq, readCells_length hbytes,
    fun j => ringBytes_getElem? hbytes⟩

/-- Settles O36: the readable run ends at the end of the storage at the latest, so its places need no reduction. -/
theorem rbGetReadWindowChangesNothing : Obligations.RbGetReadWindowChangesNothing := by
  intro inst s hs hi
  have hr := hs.ring hi
  have hbytes := ringBytes_eq hr (readRun_le_toread hr)
  have hlen := readCells_length hbytes
  refine ⟨rfl, _, (RingNext.readWindow inst _ hi hbytes).exec_eq, hlen, hlen.symm ▸ readRun_le_toread hr,
    fun j hj => ?_⟩
  have hin : (s.ring inst).readPos.toNat + j < s.params.rbCapacity := by
    have := readRun_le_end hr
    omega
  have hread := ringBytes_getElem? hbytes hj
  rw [Nat.mod_eq_of_lt hin] at hread
  exact ⟨hin, hread⟩

/-- Settles O37: more than the ring holds is rejected, and at most that is dropped. -/
theorem rbConsumeAdvances : Obligations.RbConsumeAdvances := by
  intro inst k s hs hi
  have hlt := hs.lt_length hi
  refine ⟨rfl, fun hk => ?_, fun hk => ?_⟩
  · exact ⟨_, (RingNext.consumeOversize inst k hi hk).exec_eq,
      ringFaulted_reject (f := .rbConsumeOversize inst) rfl hlt⟩
  · refine ⟨_, (RingNext.consume inst k hi hk).exec_eq, ringFrame_setRing .., rfl, ?_⟩
    rw [State.respond_ring, State.ring_setRing_same _ hlt]
    exact ⟨ringDrop_frame .., ringDrop_positions hs.params (hs.ring hi) hk⟩

/-! Counts -/

/-- Settles O39: what a ring holds is below its capacity, and both runs are within their counts. -/
theorem ringCountsAddUp : Obligations.RingCountsAddUp := by
  intro p r _ h
  have hlt := toread_lt h
  exact ⟨by rw [towrite]; omega, readRun_le_toread h, writeRun_le_towrite h, toread_empty h⟩

/-! The open write window -/

/-- A ring with an open window after an operation that does not close it: still locked with the same `write_pos`, `read_pos`
advanced over held bytes only, and no byte of the window taken from it (R101). -/
def KeepsWindow (p : Params) (r r' : Ring) : Prop :=
  r'.writeLock = true ∧ r'.writePos = r.writePos ∧
  (∃ k, k ≤ toread p r ∧ r'.readPos.toNat = (r.readPos.toNat + k) % p.rbCapacity) ∧ writeRun p r ≤ writeRun p r'

section
variable {p : Params} {r : Ring}

/-- Writing the sticky flag, or setting the lock again, keeps the window. -/
theorem keepsWindow_of_positions_eq (h : r.Inv p) {r' : Ring} (hl : r'.writeLock = true) (hrd : r'.readPos = r.readPos)
    (hwr : r'.writePos = r.writePos) : KeepsWindow p r r' := by
  refine ⟨hl, hwr, ⟨0, Nat.zero_le _, ?_⟩, Nat.le_of_eq ?_⟩
  · rw [hrd, Nat.add_zero, Nat.mod_eq_of_lt h.read_lt]
  · rw [writeRun, writeRun, hrd, hwr]

/-- Bytes freed by the consumer do not shorten the writable run: `read_pos` moves away from `write_pos`. -/
theorem writeRun_le_of_advance (h : r.Inv p) {r' : Ring} {k : Nat} (hk : k ≤ toread p r)
    (hrd : r'.readPos.toNat = (r.readPos.toNat + k) % p.rbCapacity) (hwr : r'.writePos = r.writePos) :
    writeRun p r ≤ writeRun p r' := by
  have hr := h.read_lt
  have hw := h.write_lt
  rw [toread, modSub_eq hw hr] at hk
  rw [add_mod_once hr (by split at hk <;> omega)] at hrd
  rw [writeRun, writeRun, hwr]
  split at hk <;> split at hrd <;> repeat' split
  all_goals omega

/-- Dropping bytes keeps the window: while it is open there is no reset-on-empty (R96). -/
theorem keepsWindow_ringDrop (hp : p.WF) (h : r.Inv p) (hl : r.writeLock = true) {k : Nat} (hk : k ≤ toread p r) :
    KeepsWindow p r (ringDrop p r k) := by
  have hpos := ringDrop_positions hp h hk
  rw [if_neg (by simp [hl])] at hpos
  obtain ⟨hrd, hwr⟩ := hpos
  exact ⟨(ringDrop_writeLock k).trans hl, hwr, ⟨k, hk, hrd⟩, writeRun_le_of_advance h hk hrd hwr⟩

end

/-- A window is kept by what replaces any ring, if it is kept by what replaces its own. -/
theorem keepsWindow_setRing {s : State} (hs : s.RingsInv) {inst : Nat} (hi : inst < s.params.numRb)
    (hl : (s.ring inst).writeLock = true) {i : Nat} {x : Ring} (resp : Response)
    (hx : i = inst → KeepsWindow s.params (s.ring inst) x) :
    KeepsWindow s.params (s.ring inst) (((s.setRing i x).respond resp).ring inst) := by
  rw [State.respond_ring]
  by_cases e : i = inst
  · rw [e, State.ring_setRing_same x (hs.lt_length hi)]
    exact hx e
  · rw [State.ring_setRing_other x (Ne.symm e)]
    exact keepsWindow_of_positions_eq (hs.ring hi) hl rfl rfl

/-- A rejection keeps the window: of a ring it writes the sticky flag. -/
theorem keepsWindow_reject {s : State} (hs : s.RingsInv) {inst : Nat} (hi : inst < s.params.numRb)
    (hl : (s.ring inst).writeLock = true) (f : BlockFault) :
    KeepsWindow s.params (s.ring inst) ((reject f s).ring inst) := by
  rw [reject_ring_frame]
  exact keepsWindow_of_positions_eq (hs.ring hi) hl rfl rfl

/-- Of the RingBuffer operations only the ring's RB_COMMIT_WRITE does not keep its window. -/
theorem RingNext.keepsWindow {i : Instr} {s t : State} (h : RingNext s i t) (hs : s.RingsInv) {inst : Nat}
    (hi : inst < s.params.numRb) (hl : (s.ring inst).writeLock = true) (hc : ∀ data, i ≠ .rbCommitWrite inst data) :
    KeepsWindow s.params (s.ring inst) (t.ring inst) := by
  have hsame : KeepsWindow s.params (s.ring inst) (s.ring inst) :=
    keepsWindow_of_positions_eq (hs.ring hi) hl rfl rfl
  cases h with
  | write j data _ hj =>
    refine keepsWindow_setRing hs hi hl _ fun e => ?_
    rw [e, hl] at hj
    cases hj
  | window j =>
    exact keepsWindow_setRing hs hi hl _ fun e => e ▸ keepsWindow_of_positions_eq (hs.ring (e ▸ hi)) rfl rfl rfl
  | commit j data => exact keepsWindow_setRing hs hi hl _ fun e => absurd (e ▸ rfl) (hc data)
  | read j n =>
    exact keepsWindow_setRing hs hi hl _ fun e =>
      e ▸ keepsWindow_ringDrop hs.params (hs.ring (e ▸ hi)) (e ▸ hl) (Nat.min_le_right ..)
  | consume j k _ hk =>
    exact keepsWindow_setRing hs hi hl _ fun e => e ▸ keepsWindow_ringDrop hs.params (hs.ring (e ▸ hi)) (e ▸ hl) hk
  | towrite => exact hsame
  | peek => exact hsame
  | readWindow => exact hsame
  | toread => exact hsame
  | status => exact hsame
  | illegal => exact keepsWindow_reject hs hi hl _
  | writeLocked => exact keepsWindow_reject hs hi hl _
  | commitNotLocked => exact keepsWindow_reject hs hi hl _
  | commitOversize => exact keepsWindow_reject hs hi hl _
  | consumeOversize => exact keepsWindow_reject hs hi hl _

/-- Settles O40: an operation on no ring leaves the window as it is, and a RingBuffer operation keeps it. -/
theorem openWindowIsStable : Obligations.OpenWindowIsStable := by
  intro i s t inst hs hi hl h hne hc
  rw [(exec_host h).params]
  by_cases hring : i.ringOf? = none
  · rw [State.ring, exec_rings_eq h hne hring]
    exact keepsWindow_of_positions_eq (hs.ring hi) hl rfl rfl
  · exact (exec_ringNext hring h).keepsWindow hs hi hl hc

end Sys2Proof.Machine

/-! PROOF. The statements on the EventQueue: what each of its operations answers, writes and leaves alone, the pushed-back
event's one re-delivery, and the queue as a first-in first-out queue (42_event_queue.md R103 to R112). -/

namespace Sys2Proof.Machine

/-! What the queue holds -/

section
variable {p : Params} {q : EventQueue}

/-- A stored word comes last (R103). -/
theorem queueContents_put (hp : p.WF) (h : q.Inv p) (w : EventWord) (hroom : eqCount p q ≠ p.eqDepth - 1) :
    queueContents p (queuePut p q w) = queueContents p q ++ [w] := by
  rw [queueContents, entryContents_put hp h w hroom, ← List.append_assoc]
  rfl

/-- The pushed-back event is the first held (R104). -/
theorem queueContents_slot (hv : q.slotValid = true) : queueContents p q = q.slot :: entryContents p q := by
  rw [queueContents, if_pos hv, List.singleton_append]

/-- Without one the entries are what is held. -/
theorem queueContents_noSlot (hv : q.slotValid = false) : queueContents p q = entryContents p q := by
  rw [queueContents, hv]
  rfl

/-- A queue without an event held back and with no entries holds nothing (R105). -/
theorem queueContents_empty (hv : q.slotValid = false) (hc : eqCount p q = 0) : queueContents p q = [] := by
  rw [queueContents_noSlot hv, entryContents, hc]
  rfl

/-- The oldest entry is the first held, when none is held back (R104). -/
theorem queueContents_pop (hp : p.WF) (h : q.Inv p) (hv : q.slotValid = false) (hc : eqCount p q ≠ 0) {w : EventWord}
    (hw : Memory.read q.entry q.rd.toNat = some w) : queueContents p q = w :: queueContents p (queuePop p q w) := by
  have hv' : (queuePop p q w).slotValid = false := hv
  rw [queueContents_noSlot hv, queueContents_noSlot hv', entryContents_pop hp h hc hw]

/-- An armed queue has an empty slot (R104, R107). -/
theorem EventQueue.Inv.slotValid_of_armed (h : q.Inv p) (ha : q.pbArmed = true) : q.slotValid = false := by
  cases hv : q.slotValid with
  | false => rfl
  | true =>
    obtain ⟨-, -, hunarmed⟩ := h.slot_kind hv
    rw [ha] at hunarmed
    cases hunarmed

/-- A pushed-back event comes before all that is held (R107). -/
theorem queueContents_pushBack (h : q.Inv p) (ha : q.pbArmed = true) :
    queueContents p { q with slot := q.last, slotValid := true, pbArmed := false } = q.last :: queueContents p q := by
  rw [queueContents_slot rfl, queueContents_noSlot (h.slotValid_of_armed ha)]
  rfl

end

/-- The difference of two positions in range, in natural-number arithmetic (R27). -/
theorem modSub_eq_mod {a b : Pos} {m : Nat} (ha : a.toNat < m) (hb : b.toNat < m) :
    modSub a b m = (a.toNat + m - b.toNat) % m := by
  rw [modSub_eq ha hb]
  split
  · rw [Nat.mod_eq_sub_mod (by omega), Nat.mod_eq_of_lt (by omega)]
    omega
  · rw [Nat.mod_eq_of_lt (by omega)]
    omega

/-! Pushes -/

/-- Of the queue a push writes `wr`, the entries and `eq_overflow`, accepted or not (R103). -/
theorem push_queue_frame (w : EventWord) (s : State) :
    (push w s).1.queue = { s.queue with wr := (push w s).1.queue.wr, entry := (push w s).1.queue.entry,
                                        eqOverflow := (push w s).1.queue.eqOverflow } := by
  rcases push_cases w s with ⟨-, e⟩ | ⟨-, -, e⟩ | ⟨-, -, e⟩ <;> rw [e] <;> rfl

/-- A word of a kind is stored, or refused by a full queue, and nothing else changes (R103). -/
theorem pushes_push {w : EventWord} {s : State} (hp : s.params.WF) (hk : eventKind w ≠ kindNone) :
    Pushes s (push w s).1 w (push w s).2 ∧
    (push w s).1 = { s with queue := (push w s).1.queue, faults := (push w s).1.faults } := by
  rcases push_cases w s with ⟨hnone, -⟩ | ⟨-, hfull, e⟩ | ⟨-, hroom, e⟩
  · exact absurd hnone hk
  · rw [e]
    exact ⟨.inr ⟨rfl, hfull, rfl, fun _ => mem_insertFault⟩, rfl⟩
  · rw [e]
    exact ⟨.inl ⟨rfl, hroom, stores_queuePut hp s.queue w, rfl⟩, rfl⟩

/-- What the queue holds after at most one push: `w` last if it was accepted. The event delivered last and `pb_armed` stay,
so a push-back is unaffected (R108). -/
def Appends (p : Params) (q q' : EventQueue) (w : EventWord) (accepted : Bool) : Prop :=
  q'.last = q.last ∧ q'.pbArmed = q.pbArmed ∧
  queueContents p q' = if accepted = true then queueContents p q ++ [w] else queueContents p q

theorem appends_refl (p : Params) (q : EventQueue) (w : EventWord) : Appends p q q w false := ⟨rfl, rfl, rfl⟩

theorem appends_overflow (p : Params) (q : EventQueue) (w : EventWord) :
    Appends p q { q with eqOverflow := true } w false := ⟨rfl, rfl, rfl⟩

theorem appends_put {s : State} (hs : s.QueueInv) (w : EventWord)
    (hroom : eqCount s.params s.queue ≠ s.params.eqDepth - 1) :
    Appends s.params s.queue (queuePut s.params s.queue w) w true :=
  ⟨rfl, rfl, queueContents_put hs.params hs.queue w hroom⟩

theorem appends_push {s : State} (hs : s.QueueInv) (w : EventWord) :
    Appends s.params s.queue (push w s).1.queue w (push w s).2 := by
  rcases push_cases w s with ⟨-, e⟩ | ⟨-, -, e⟩ | ⟨-, hroom, e⟩ <;> rw [e]
  · exact appends_refl ..
  · exact appends_overflow ..
  · exact appends_put hs w hroom

/-- A byte at `ASM.in` appends the event of the command it emits, if that is accepted (R84). -/
theorem FeedPush.appends {s t : State} (hs : s.QueueInv) (h : FeedPush s t) :
    Appends s.params s.queue t.queue (0x01#8 ++ t.response.raw) t.response.accepted := by
  cases h with
  | silent hq _ hr => rw [hq, hr]; exact appends_refl ..
  | stored r hroom hq _ hr => rw [hq, hr]; exact appends_put hs _ hroom
  | refused r _ hq _ hr => rw [hq, hr]; exact appends_overflow ..

/-- ARB_SAMPLE appends the event of a changed pair, if that is accepted (R115). -/
theorem execArbSample_appends {usb bus : Bool} {s t : State} (hs : s.QueueInv) (h : execArbSample usb bus s = .next t) :
    Appends s.params s.queue t.queue (connectionEvent s.arb usb bus) t.response.pushed := by
  rcases execArbSample_cases usb bus s with ⟨-, -, e⟩ | ⟨-, ⟨hroom, e⟩ | ⟨-, e⟩⟩ <;> rw [e] at h <;> cases h
  · exact appends_refl ..
  · exact appends_put hs _ hroom
  · exact appends_overflow ..

/-- A RingBuffer operation names a ring. -/
theorem RingNext.ringOf?_ne_none {i : Instr} {s t : State} (h : RingNext s i t) : i.ringOf? ≠ none := by
  cases h with
  | illegal _ inst hi => rw [hi]; nofun
  | _ => nofun

/-- It leaves the queue alone and accepts no event (R139). -/
theorem RingNext.appends {i : Instr} {s t : State} (h : RingNext s i t) (w : EventWord) :
    Appends s.params s.queue t.queue w t.response.accepted := by
  cases h <;> exact appends_refl ..

/-! First in, first out -/

/-- EQ_POP answers and removes the first event held, and arms a push-back of it only when it was an entry (R104, R105). -/
theorem execEqPop_fifo {s t : State} (hs : s.QueueInv) (h : execEqPop s = .next t) :
    t.response.word = (queueContents s.params s.queue).headD 0 ∧
    queueContents s.params t.queue = (queueContents s.params s.queue).tail ∧
    (t.queue.pbArmed = true → t.queue.last = t.response.word ∧ s.queue.slotValid = false) := by
  rcases execEqPop_next h with ⟨hv, rfl⟩ | ⟨hv, hc, rfl⟩ | ⟨hv, hc, w, hw, rfl⟩
  · rw [queueContents_slot hv]
    exact ⟨rfl, queueContents_noSlot rfl, nofun⟩
  · rw [queueContents_empty hv hc]
    exact ⟨rfl, queueContents_empty hv hc, nofun⟩
  · rw [queueContents_pop hs.params hs.queue hv hc hw]
    exact ⟨rfl, rfl, fun _ => ⟨rfl, hv⟩⟩

/-- EQ_PUSH_BACK disarms; armed, it puts the event delivered last in front (R107). -/
theorem execEqPushBack_fifo {s t : State} (hs : s.QueueInv) (h : execEqPushBack s = .next t) :
    t.queue.last = s.queue.last ∧ t.queue.pbArmed = false ∧
    if s.queue.pbArmed = true then queueContents s.params t.queue = s.queue.last :: queueContents s.params s.queue
    else queueContents s.params t.queue = queueContents s.params s.queue := by
  rcases execEqPushBack_next h with ⟨ha, rfl⟩ | ⟨ha, rfl⟩
  · rw [if_pos ha]
    exact ⟨rfl, rfl, queueContents_pushBack hs.queue ha⟩
  · rw [ha]
    exact ⟨rfl, ha, rfl⟩

/-- Settles O46, by unit: EQ_POP and EQ_PUSH_BACK work on the front, and every other operation appends at most the event it
pushes. -/
theorem eventQueueIsAFifo : Obligations.EventQueueIsAFifo := by
  intro i s t hs h hne
  rw [(exec_host h).params]
  cases exec_next h with
  | reset => exact absurd rfl hne
  | feed _ b hport =>
    obtain ⟨hlast, harmed, hcontents⟩ := (asmFeed_push b s).appends hs
    refine ⟨fun _ => ⟨hlast, fun _ => harmed⟩, ?_⟩
    cases i <;> first | exact hcontents | cases hport
  | ring _ _ hr =>
    obtain ⟨hlast, harmed, hcontents⟩ := hr.appends (0x01#8 ++ t.response.raw)
    refine ⟨fun _ => ⟨hlast, fun _ => harmed⟩, ?_⟩
    cases i <;> first | exact hcontents | exact absurd rfl hr.ringOf?_ne_none
  | topStatus => exact ⟨fun _ => ⟨rfl, fun _ => rfl⟩, rfl⟩
  | eqPush w =>
    obtain ⟨hlast, harmed, hcontents⟩ := appends_push hs w
    exact ⟨fun _ => ⟨hlast, fun _ => harmed⟩, hcontents⟩
  | eqPop _ h => exact ⟨fun hn => absurd rfl hn, execEqPop_fifo hs h⟩
  | eqPushBack _ h =>
    obtain ⟨hlast, hfront⟩ := execEqPushBack_fifo hs h
    exact ⟨fun _ => ⟨hlast, fun hn => absurd rfl hn⟩, hfront⟩
  | eqStatus => exact ⟨fun _ => ⟨rfl, fun _ => rfl⟩, rfl⟩
  | arbSample usb bus _ h =>
    obtain ⟨hlast, harmed, hcontents⟩ := execArbSample_appends hs h
    refine ⟨fun _ => ⟨hlast, fun _ => harmed⟩, ?_⟩
    change if t.response.pushed = true then _ else _
    split
    · next hpushed =>
      rw [if_pos hpushed] at hcontents
      exact ⟨_, hcontents, eventKind_eventWord ..⟩
    · next hpushed =>
      rwa [if_neg hpushed] at hcontents
  | arbOutcome => exact ⟨fun _ => ⟨rfl, fun _ => rfl⟩, rfl⟩

/-! The operations of the queue -/

/-- Settles O41: a None word is rejected, and any other pushed. -/
theorem eqPushStoresOrOverflows : Obligations.EqPushStoresOrOverflows := by
  intro w s hp
  refine ⟨rfl, fun hk => ⟨_, exec_eqPush_none hk s, illegalOp_reject s⟩, fun hk => ?_⟩
  obtain ⟨hpushes, hframe⟩ := pushes_push hp hk
  exact ⟨_, _, execEqPush_eq w s, hpushes, congrArg (State.respond · _) hframe⟩

/-- EQ_POP delivers the event held back (R104). -/
theorem exec_eqPop_slot {s : State} (hv : s.queue.slotValid = true) : exec .eqPop s =
    .next ((s.setQueue { s.queue with slotValid := false, pbArmed := false }).respond { word := s.queue.slot }) :=
  if_pos hv

/-- With nothing to deliver it answers the None event (R105). -/
theorem exec_eqPop_empty {s : State} (hv : s.queue.slotValid = false) (hc : eqCount s.params s.queue = 0) :
    exec .eqPop s = .next ((s.setQueue { s.queue with pbArmed := false }).respond { word := 0x00000000 }) := by
  simp only [exec, execEqPop, hv, Bool.false_eq_true, if_false, if_pos hc]

/-- Else it delivers the entry at `rd` (R104). -/
theorem exec_eqPop_entry {s : State} {w : EventWord} (hv : s.queue.slotValid = false) (hc : eqCount s.params s.queue ≠ 0)
    (hw : Memory.read s.queue.entry s.queue.rd.toNat = some w) :
    exec .eqPop s = .next ((s.setQueue (queuePop s.params s.queue w)).respond { word := w }) := by
  simp only [exec, execEqPop, queuePop, hv, Bool.false_eq_true, if_false, if_neg hc, hw]

/-- Settles O42, by the three sources of R104 and R105; a good queue stores no None event. -/
theorem eqPopDelivers : Obligations.EqPopDelivers := by
  intro s hs q
  refine ⟨rfl, exec_eqPop_slot, exec_eqPop_empty, fun hv hc => ?_⟩
  obtain ⟨w, hw⟩ := hs.queue.read_rd hc
  have hkind := hs.queue.entry_kind _ (Memory.mem_of_read hw)
  obtain ⟨-, -, ⟨hd, hd'⟩, -⟩ := hs.params
  exact ⟨w, _, hw, modAdd_toNat (by omega) hd', hkind, exec_eqPop_entry hv hc hw⟩

/-- Settles O43: an unarmed push-back is rejected. -/
theorem eqPushBackOnlyWhenArmed : Obligations.EqPushBackOnlyWhenArmed := by
  intro s
  refine ⟨rfl, fun ha => if_pos ha, fun ha => ?_⟩
  exact ⟨reject .pushbackIllegal s, if_neg (by simp [ha]), rfl, fun _ => mem_insertFault⟩

/-- A range of bits above the lowest does not see it. -/
theorem extractLsb'_concat_succ {n : Nat} (x : BitVec n) (f : Bool) (i k : Nat) :
    (x.concat f).extractLsb' (i + 1) k = x.extractLsb' i k :=
  BitVec.extractLsb'_append_eq_of_le (Nat.le_add_left 1 i)

/-- The status word has the four flags at bits 0 to 3, 0 above them, and the low half of the count on top (R31). -/
theorem eqStatusWord_bits (p : Params) (q : EventQueue) :
    (eqStatusWord p q).getLsbD 0 = q.slotValid ∧ (eqStatusWord p q).getLsbD 1 = q.pbArmed ∧
    (eqStatusWord p q).getLsbD 2 = q.eqOverflow ∧ (eqStatusWord p q).getLsbD 3 = q.pbFault ∧
    (eqStatusWord p q).extractLsb' 4 12 = 0 ∧ (eqStatusWord p q).extractLsb' 16 16 = BitVec.ofNat 16 (eqCount p q) := by
  have hword : eqStatusWord p q = ((((BitVec.ofNat 16 (eqCount p q) ++ 0x000#12).concat q.pbFault).concat
    q.eqOverflow).concat q.pbArmed).concat q.slotValid := rfl
  simp only [hword, BitVec.getLsbD_concat_succ, BitVec.getLsbD_concat_zero, extractLsb'_concat_succ, true_and]
  exact ⟨BitVec.extractLsb'_append_eq_right, BitVec.extractLsb'_append_eq_left⟩

/-- Settles O45: the word is R31's, and a count below the depth fits its 16 bits. -/
theorem eqStatusReadsTheQueue : Obligations.EqStatusReadsTheQueue := by
  intro s hs
  obtain ⟨hslot, harmed, hoverflow, hfault, hzero, hcount⟩ := eqStatusWord_bits s.params s.queue
  refine ⟨rfl, _, rfl, hslot, harmed, hoverflow, hfault, hzero, ?_⟩
  have hlt := eqCount_lt hs.queue
  obtain ⟨-, -, ⟨-, hd⟩, -⟩ := hs.params
  rw [hcount, BitVec.toNat_ofNat, Nat.mod_eq_of_lt (by omega)]
  exact modSub_eq_mod hs.queue.wr_lt hs.queue.rd_lt

/-- Settles O44: an accepted push-back fills the slot, which no push writes; EQ_POP takes it and leaves the queue unarmed. -/
theorem eventIsRedeliveredOnce : Obligations.EventIsRedeliveredOnce := by
  intro s t u v w ha ht hu hv
  have ht : t.queue = { s.queue with slot := s.queue.last, slotValid := true, pbArmed := false } := by
    rcases execEqPushBack_next ht with ⟨-, rfl⟩ | ⟨hn, -⟩
    · rfl
    · rw [ha] at hn
      cases hn
  have hslot : u.queue.slotValid = true ∧ u.queue.slot = s.queue.last ∧ u.queue.rd = s.queue.rd := by
    cases (execEqPush_eq w t).symm.trans hu
    rw [State.respond_queue, push_queue_frame, ht]
    exact ⟨rfl, rfl, rfl⟩
  obtain ⟨hvalid, hword, hrd⟩ := hslot
  cases (exec_eqPop_slot hvalid).symm.trans hv
  exact ⟨hword, hrd, _, rfl, rfl, rfl⟩

end Sys2Proof.Machine

/-! PROOF. The statements on the ConnectionArbiter: the event of a changed pair, and the outcome of the stored one
(43_arbiter.md R113 to R118). -/

namespace Sys2Proof.Machine

/-! The arbiter's outcome and its event -/

/-- The outcome's code by the two presences, as R113 and R63 give it. -/
theorem classify_code (usb bus : Bool) :
    (classify usb bus).code = if usb && bus then 0b10 else if usb ^^ bus then 0b01 else 0b00 := by
  cases usb <;> cases bus <;> rfl

/-- Different outcomes have different codes (R63). -/
theorem Connectivity.code_inj {o o' : Connectivity} : o.code = o'.code ↔ o = o' := by
  cases o <;> cases o' <;> decide

/-- The payload has the pair at bits 0 and 1, the outcome's code above it, `outcome_changed` at bit 4 and zeros on top (R63). -/
theorem connectionPayload_fields (usb bus changed : Bool) (o : Connectivity) :
    (connectionPayload usb bus changed o).getLsbD 0 = usb ∧ (connectionPayload usb bus changed o).getLsbD 1 = bus ∧
    (connectionPayload usb bus changed o).extractLsb' 2 2 = o.code ∧
    (connectionPayload usb bus changed o).getLsbD 4 = changed ∧
    (connectionPayload usb bus changed o).extractLsb' 5 19 = 0 := by
  have hpayload : connectionPayload usb bus changed o = (((0#19).concat changed ++ o.code).concat bus).concat usb := rfl
  simp only [hpayload, BitVec.getLsbD_concat_succ, BitVec.getLsbD_concat_zero, extractLsb'_concat_succ, true_and]
  refine ⟨BitVec.extractLsb'_append_eq_right, ?_, ?_⟩
  · exact BitVec.getLsbD_append.trans BitVec.getLsbD_concat_zero
  · exact (BitVec.extractLsb'_append_eq_of_le (Nat.le_add_left 2 1)).trans (extractLsb'_concat_succ ..)

/-- Below bit 24 an event word is its payload (R60). -/
theorem getLsbD_eventWord (k : Byte) (x : Raw) {i : Nat} (hi : i < 24) : (eventWord k x).getLsbD i = x.getLsbD i := by
  rw [eventWord, BitVec.getLsbD_append, if_pos hi]

theorem extractLsb'_eventWord (k : Byte) (x : Raw) {i n : Nat} (hi : i + n ≤ 24) :
    (eventWord k x).extractLsb' i n = x.extractLsb' i n :=
  BitVec.extractLsb'_append_eq_of_add_le hi

/-- The event of ARB_SAMPLE: kind 0x02, the pair, its outcome and whether that is another than the stored pair's (R63, R115). -/
theorem connectionEvent_fields (prev : Arbiter) (usb bus : Bool) :
    (connectionEvent prev usb bus).extractLsb' 24 8 = 0x02 ∧
    (connectionEvent prev usb bus).getLsbD 0 = usb ∧ (connectionEvent prev usb bus).getLsbD 1 = bus ∧
    (connectionEvent prev usb bus).extractLsb' 2 2 = (classify usb bus).code ∧
    ((connectionEvent prev usb bus).getLsbD 4 = true ↔
      (classify usb bus).code ≠ (classify prev.prevUsb prev.prevBus).code) ∧
    (connectionEvent prev usb bus).extractLsb' 5 19 = 0 := by
  obtain ⟨husb, hbus, hcode, hchanged, hzero⟩ := connectionPayload_fields usb bus
    (decide (classify usb bus ≠ classify prev.prevUsb prev.prevBus)) (classify usb bus)
  refine ⟨eventKind_eventWord .., (getLsbD_eventWord _ _ (by decide)).trans husb,
    (getLsbD_eventWord _ _ (by decide)).trans hbus, (extractLsb'_eventWord _ _ (by decide)).trans hcode, ?_,
    (extractLsb'_eventWord _ _ (by decide)).trans hzero⟩
  rw [connectionEvent, getLsbD_eventWord _ _ (by decide), hchanged, decide_eq_true_iff, ne_eq, ne_eq, Connectivity.code_inj]

/-! The operations of the arbiter -/

/-- ARB_SAMPLE of another pair pushes its event and stores the pair if the queue accepts it (R115, R118). -/
theorem execArbSample_pushes {usb bus : Bool} {s : State} (hp : s.params.WF)
    (hdiff : ¬ (usb = s.arb.prevUsb ∧ bus = s.arb.prevBus)) :
    ∃ t ok, execArbSample usb bus s = .next t ∧ Pushes s t (connectionEvent s.arb usb bus) ok ∧
      t = { s with queue := t.queue, faults := t.faults, arb := if ok then { prevUsb := usb, prevBus := bus } else s.arb,
                   response := { outcome := (classify usb bus).code, pushed := ok } } := by
  rcases execArbSample_cases usb bus s with ⟨husb, hbus, -⟩ | ⟨-, ⟨hroom, e⟩ | ⟨hfull, e⟩⟩
  · exact absurd ⟨husb, hbus⟩ hdiff
  · exact ⟨_, true, e, .inl ⟨rfl, hroom, stores_queuePut hp s.queue _, rfl⟩, rfl⟩
  · exact ⟨_, false, e, .inr ⟨rfl, hfull, rfl, fun _ => mem_insertFault⟩, rfl⟩

/-- Settles O47: a pair that is not the stored one has its event pushed, and the event's fields are those of R63. -/
theorem arbSampleReportsAChange : Obligations.ArbSampleReportsAChange := by
  intro usb bus s hp code
  have hcode : ∀ u b, code u b = (classify u b).code := fun u b => (classify_code u b).symm
  simp only [hcode]
  refine ⟨rfl, fun hsame => if_pos hsame, fun hdiff => ?_⟩
  obtain ⟨t, ok, hexec, hpushes, hframe⟩ := execArbSample_pushes hp hdiff
  obtain ⟨hkind, husb, hbus, houtcome, hchanged, hzero⟩ := connectionEvent_fields s.arb usb bus
  exact ⟨t, _, ok, hexec, hpushes, hkind, husb, hbus, houtcome, hchanged, hzero, hframe⟩

/-- Settles O48: the response is the outcome of the stored pair. -/
theorem arbOutcomeReadsTheStoredPair : Obligations.ArbOutcomeReadsTheStoredPair := by
  intro s
  refine ⟨rfl, ?_⟩
  rw [← classify_code]
  rfl

end Sys2Proof.Machine

/-! PROOF. The statement on TOP_STATUS, the read-only view of the sticky flags (44_system.md R120). -/

namespace Sys2Proof.Machine

/-- The word's bit for the rings is the OR over every instance (R32). -/
theorem anyRbFault_iff (s : State) : anyRbFault s = true ↔ ∃ r ∈ s.rings, r.rbFault = true := List.any_eq_true

/-- The status word has the four flags at bits 0 to 3, and 0 above them (R32). -/
theorem topStatusWord_bits (s : State) :
    (topStatusWord s).getLsbD 0 = s.illegalOp ∧ (topStatusWord s).getLsbD 1 = anyRbFault s ∧
    (topStatusWord s).getLsbD 2 = s.queue.eqOverflow ∧ (topStatusWord s).getLsbD 3 = s.queue.pbFault ∧
    (topStatusWord s).extractLsb' 4 4 = 0 := by
  have hword : topStatusWord s = ((((0#4).concat s.queue.pbFault).concat s.queue.eqOverflow).concat
    (anyRbFault s)).concat s.illegalOp := rfl
  simp only [hword, BitVec.getLsbD_concat_succ, BitVec.getLsbD_concat_zero, extractLsb'_concat_succ, true_and]
  rfl

/-- Settles O15: the word is R32's, and TOP_STATUS only responds with it. -/
theorem topStatusReadsTheFlags : Obligations.TopStatusReadsTheFlags := by
  intro s
  obtain ⟨hillegal, hring, hoverflow, hpushBack, hzero⟩ := topStatusWord_bits s
  refine ⟨rfl, _, rfl, hillegal, ?_, hoverflow, hpushBack, hzero⟩
  rw [hring]
  exact anyRbFault_iff s

end Sys2Proof.Machine

/-! PROOF. The statements on the sticky flags and the fault set: which operation sets a flag, what stands in the fault set
behind it, and what a reset keeps (60_exceptions.md R127 to R130, 70_reset_and_hazards.md R140, R141). -/

namespace Sys2Proof.Machine

/-! The flag column of R128 -/

/-- The sticky flags (R128). -/
inductive StickyFlag where
  | illegalOp
  | rbFault (inst : Nat)
  | pbFault
  | eqOverflow

/-- A sticky flag of the state; that of a ring that does not exist is not set. -/
def State.flag (s : State) : StickyFlag → Bool
  | .illegalOp => s.illegalOp
  | .rbFault i => (s.ring i).rbFault
  | .pbFault => s.queue.pbFault
  | .eqOverflow => s.queue.eqOverflow

/-- The flag that a fault sets (R128). -/
def BlockFault.flag : BlockFault → StickyFlag
  | .illegalOp => .illegalOp
  | .rbWriteWhileLocked i | .rbCommitNotLocked i | .rbCommitOversize i | .rbConsumeOversize i => .rbFault i
  | .pushbackIllegal => .pbFault
  | .eqOverflow => .eqOverflow

theorem State.ring_of_length_le {s : State} {i : Nat} (h : s.rings.length ≤ i) : s.ring i = .reset := by
  simp [State.ring, h]

/-- A claim on the rings whose flag is set, read by the ring's index. -/
theorem forall_rbFault_iff {s : State} {P : Prop} :
    (∀ r ∈ s.rings, r.rbFault = true → P) ↔ ∀ i, s.flag (.rbFault i) = true → P := by
  constructor
  · intro h i hi
    by_cases hlt : i < s.rings.length
    · exact h _ (State.ring_mem hlt) hi
    · rw [State.flag, State.ring_of_length_le (by omega)] at hi
      cases hi
  · intro h r hr hf
    obtain ⟨i, hlt, rfl⟩ := List.mem_iff_getElem.mp hr
    exact h i (by rwa [State.flag, State.ring_eq_getElem hlt])

/-- Writing a ring whose flag is the old one writes no flag. -/
theorem flag_setRing {s : State} {i : Nat} {r : Ring} (h : r.rbFault = (s.ring i).rbFault) (g : StickyFlag) :
    (s.setRing i r).flag g = s.flag g := by
  cases g with
  | rbFault j =>
    by_cases hj : j = i
    · subst hj
      by_cases hlt : j < s.rings.length
      · simp [State.flag, State.ring_setRing_same r hlt, h]
      · rw [State.setRing, List.set_eq_of_length_le (by omega)]
    · simp [State.flag, State.ring_setRing_other r hj]
  | _ => rfl

/-! Taking a fault -/

/-- Setting one ring's flag clears none and sets no other. -/
theorem flag_setRbFault (s : State) (i : Nat) (g : StickyFlag) :
    (s.flag g = true → (s.setRbFault i).flag g = true) ∧
    ((s.setRbFault i).flag g = true → s.flag g = true ∨ g = .rbFault i) := by
  cases g with
  | rbFault j =>
    by_cases hj : j = i
    · subst hj
      refine ⟨fun hf => ?_, fun _ => .inr rfl⟩
      by_cases hlt : j < s.rings.length
      · rw [State.flag, State.setRbFault, State.ring_setRing_same _ hlt]
      · rwa [State.setRbFault, State.setRing, List.set_eq_of_length_le (by omega)]
    · rw [State.flag, State.flag, State.setRbFault, State.ring_setRing_other _ hj]
      exact ⟨id, .inl⟩
  | _ => exact ⟨id, .inl⟩

/-- Taking a fault clears no flag and sets no flag but its own (R129). -/
theorem flag_raise (f : BlockFault) (s : State) (g : StickyFlag) :
    (s.flag g = true → (raise f s).flag g = true) ∧ ((raise f s).flag g = true → s.flag g = true ∨ g = f.flag) := by
  cases f with
  | illegalOp => cases g <;> simp [raise, State.setFlag, State.flag, BlockFault.flag]
  | rbWriteWhileLocked i => exact flag_setRbFault s i g
  | rbCommitNotLocked i => exact flag_setRbFault s i g
  | rbCommitOversize i => exact flag_setRbFault s i g
  | rbConsumeOversize i => exact flag_setRbFault s i g
  | pushbackIllegal => cases g <;> simp [raise, State.setFlag, State.flag, BlockFault.flag]
  | eqOverflow => cases g <;> simp [raise, State.setFlag, State.flag, BlockFault.flag]

/-- Every flag and the fault set are the same in both states. -/
structure SameFaults (s t : State) : Prop where
  flag : ∀ g, t.flag g = s.flag g
  faults : t.faults = s.faults

theorem sameFaults_respond (s : State) (r : Response) : SameFaults s (s.respond r) := ⟨fun _ => rfl, rfl⟩

theorem sameFaults_setRing {s : State} {i : Nat} {x : Ring} (h : x.rbFault = (s.ring i).rbFault) (r : Response) :
    SameFaults s ((s.setRing i x).respond r) := ⟨fun g => flag_setRing h g, rfl⟩

theorem sameFaults_setQueue {s : State} {q : EventQueue} (hp : q.pbFault = s.queue.pbFault)
    (ho : q.eqOverflow = s.queue.eqOverflow) (r : Response) : SameFaults s ((s.setQueue q).respond r) :=
  ⟨fun
    | .pbFault => hp
    | .eqOverflow => ho
    | .illegalOp | .rbFault _ => rfl, rfl⟩

/-! What an operation can do to the flags and the fault set -/

/-- The operations that may set a flag, with their conditions (R128). -/
def SetsFlag (i : Instr) (s : State) : StickyFlag → Prop
  | .illegalOp => i.wellFormed s.params = false
  | .rbFault j => RingMisuse i j s
  | .pbFault => i = .eqPushBack ∧ s.queue.pbArmed = false
  | .eqOverflow => eqCount s.params s.queue = s.params.eqDepth - 1 ∧
      ((∃ w, i = .eqPush w) ∨ i.port = .asmIn ∨ ∃ usb bus, i = .arbSample usb bus)

/-- An operation takes no fault, or one fault, under the condition of the flag it sets. -/
def FaultStep (i : Instr) (s t : State) : Prop :=
  SameFaults s t ∨ ∃ f : BlockFault, SetsFlag i s f.flag ∧ SameFaults (raise f s) t

theorem faultStep_reject {i : Instr} {s : State} (f : BlockFault) (h : SetsFlag i s f.flag) : FaultStep i s (reject f s) :=
  .inr ⟨f, h, sameFaults_respond _ _⟩

/-- A RingBuffer operation faults when it names no ring or misuses the one it names. -/
theorem RingNext.faultStep {i : Instr} {s t : State} (h : RingNext s i t) : FaultStep i s t := by
  cases h with
  | illegal _ inst hi hlt => exact faultStep_reject .illegalOp (wellFormed_eq_false_iff.mpr (.inl ⟨inst, hi, hlt⟩))
  | write => exact .inl (sameFaults_setRing (by rfl) _)
  | writeLocked inst data _ hl => exact faultStep_reject (.rbWriteWhileLocked inst) (.inl ⟨data, rfl, hl⟩)
  | window => exact .inl (sameFaults_setRing (by rfl) _)
  | commit => exact .inl (sameFaults_setRing (by rfl) _)
  | commitNotLocked inst data _ hl => exact faultStep_reject (.rbCommitNotLocked inst) (.inr (.inl ⟨data, rfl, .inl hl⟩))
  | commitOversize inst data _ _ hlen =>
    exact faultStep_reject (.rbCommitOversize inst) (.inr (.inl ⟨data, rfl, .inr hlen⟩))
  | read => exact .inl (sameFaults_setRing (ringDrop_rbFault _) _)
  | consume => exact .inl (sameFaults_setRing (ringDrop_rbFault _) _)
  | consumeOversize inst k _ hk => exact faultStep_reject (.rbConsumeOversize inst) (.inr (.inr ⟨k, rfl, hk⟩))
  | towrite => exact .inl (sameFaults_respond _ _)
  | peek => exact .inl (sameFaults_respond _ _)
  | readWindow => exact .inl (sameFaults_respond _ _)
  | toread => exact .inl (sameFaults_respond _ _)
  | status => exact .inl (sameFaults_respond _ _)

/-- EQ_PUSH faults on a word of kind None and on a full queue (R103, R110). -/
theorem push_faultStep (w : EventWord) (s : State) (r : Response) : FaultStep (.eqPush w) s ((push w s).1.respond r) := by
  rcases push_cases w s with ⟨hk, e⟩ | ⟨-, hfull, e⟩ | ⟨-, -, e⟩ <;> rw [e]
  · exact .inr ⟨.illegalOp, wellFormed_eq_false_iff.mpr (.inr ⟨w, rfl, hk⟩), sameFaults_respond _ _⟩
  · exact .inr ⟨.eqOverflow, ⟨hfull, .inl ⟨w, rfl⟩⟩, sameFaults_respond _ _⟩
  · exact .inl (sameFaults_setQueue (by rfl) (by rfl) _)

/-- A byte at `ASM.in` faults when a full queue refuses what it emits (R130). -/
theorem asmFeed_faultStep {i : Instr} (hp : i.port = .asmIn) (b : Byte) (s : State) : FaultStep i s (asmFeed b s) := by
  have hflag : ∀ q, (asmFeed b s).queue = q → ∀ g, (asmFeed b s).flag g = (s.setQueue q).flag g := by
    rintro q hq g
    rw [asmFeed_frame, hq]
    rfl
  cases asmFeed_push b s with
  | silent hq hf => exact .inl ⟨hflag _ hq, hf⟩
  | stored r _ hq hf => exact .inl ⟨fun g => (hflag _ hq g).trans rfl, hf⟩
  | refused r hfull hq hf => exact .inr ⟨.eqOverflow, ⟨hfull, .inr (.inl hp)⟩, hflag _ hq, hf⟩

/-- ARB_SAMPLE faults when a full queue refuses its event (R118). -/
theorem execArbSample_faultStep {usb bus : Bool} {s t : State} (h : execArbSample usb bus s = .next t) :
    FaultStep (.arbSample usb bus) s t := by
  rcases execArbSample_cases usb bus s with ⟨-, -, e⟩ | ⟨-, ⟨-, e⟩ | ⟨hfull, e⟩⟩ <;> rw [e] at h <;> cases h
  · exact .inl (sameFaults_respond _ _)
  · exact .inl ⟨fun _ => rfl, rfl⟩
  · exact .inr ⟨.eqOverflow, ⟨hfull, .inr (.inr ⟨usb, bus, rfl⟩)⟩, sameFaults_respond _ _⟩

/-- Every operation but TOP_RESET takes at most one fault, under that fault's own condition (R128, R129). -/
theorem exec_faultStep {i : Instr} {s t : State} (h : exec i s = .next t) (hne : i ≠ .topReset) : FaultStep i s t := by
  cases exec_next h with
  | reset => exact absurd rfl hne
  | feed _ b hp => exact asmFeed_faultStep hp b s
  | ring _ _ hr => exact hr.faultStep
  | topStatus => exact .inl (sameFaults_respond _ _)
  | eqPush w => exact push_faultStep w s _
  | eqPop _ h =>
    rcases execEqPop_next h with ⟨-, rfl⟩ | ⟨-, -, rfl⟩ | ⟨-, -, w, -, rfl⟩ <;>
      exact .inl (sameFaults_setQueue (by rfl) (by rfl) _)
  | eqPushBack _ h =>
    rcases execEqPushBack_next h with ⟨-, rfl⟩ | ⟨ha, rfl⟩
    · exact .inl (sameFaults_setQueue (by rfl) (by rfl) _)
    · exact faultStep_reject .pushbackIllegal ⟨rfl, ha⟩
  | eqStatus => exact .inl (sameFaults_respond _ _)
  | arbSample _ _ _ h => exact execArbSample_faultStep h
  | arbOutcome => exact .inl (sameFaults_respond _ _)

theorem FaultStep.sticky {i : Instr} {s t : State} (h : FaultStep i s t) {g : StickyFlag} (hg : s.flag g = true) :
    t.flag g = true := by
  rcases h with h | ⟨f, -, h⟩ <;> rw [h.flag]
  · exact hg
  · exact (flag_raise f s g).1 hg

theorem FaultStep.newly_set {i : Instr} {s t : State} (h : FaultStep i s t) {g : StickyFlag} (hg : t.flag g = true) :
    s.flag g = true ∨ SetsFlag i s g := by
  rcases h with h | ⟨f, hf, h⟩ <;> rw [h.flag] at hg
  · exact .inl hg
  · exact ((flag_raise f s g).2 hg).imp_right (by rintro rfl; exact hf)

theorem FaultStep.mem_faults {i : Instr} {s t : State} (h : FaultStep i s t) {c : FaultCode} (hc : c ∈ s.faults) :
    c ∈ t.faults := by
  rcases h with h | ⟨f, -, h⟩ <;> rw [h.faults]
  · exact hc
  · rw [raise_faults]
    exact mem_insertFault.mpr (.inr hc)

/-! The recorded faults -/

/-- One of the faults that set the flag is recorded (R128, R140). -/
def StickyFlag.Recorded (fs : List FaultCode) : StickyFlag → Prop
  | .illegalOp => FaultCode.illegalOp ∈ fs
  | .rbFault _ => FaultCode.rbWriteWhileLocked ∈ fs ∨ FaultCode.rbCommitNotLocked ∈ fs ∨
      FaultCode.rbCommitOversize ∈ fs ∨ FaultCode.rbConsumeOversize ∈ fs
  | .pbFault => FaultCode.pushbackIllegal ∈ fs
  | .eqOverflow => FaultCode.eqOverflow ∈ fs

theorem StickyFlag.Recorded.mono {fs fs' : List FaultCode} (h : fs ⊆ fs') {g : StickyFlag} (hg : g.Recorded fs) :
    g.Recorded fs' := by
  cases g with
  | rbFault => exact hg.imp (@h _) (.imp (@h _) (.imp (@h _) (@h _)))
  | _ => exact h hg

theorem BlockFault.flag_recorded {f : BlockFault} {fs : List FaultCode} (h : f.code ∈ fs) : f.flag.Recorded fs := by
  cases f with
  | rbWriteWhileLocked => exact .inl h
  | rbCommitNotLocked => exact .inr (.inl h)
  | rbCommitOversize => exact .inr (.inr (.inl h))
  | rbConsumeOversize => exact .inr (.inr (.inr h))
  | _ => exact h

/-- The invariant, flag by flag. -/
theorem faultsInv_iff {s : State} : s.FaultsInv ↔
    s.faults.Pairwise (fun c d => c.number < d.number) ∧ ∀ g, s.flag g = true → g.Recorded s.faults := by
  constructor
  · rintro ⟨hsorted, hillegal, hpushback, hoverflow, hrings⟩
    refine ⟨hsorted, fun g hg => ?_⟩
    cases g with
    | illegalOp => exact hillegal hg
    | rbFault i => exact forall_rbFault_iff.mp hrings i hg
    | pbFault => exact hpushback hg
    | eqOverflow => exact hoverflow hg
  · rintro ⟨hsorted, hflags⟩
    exact ⟨hsorted, hflags .illegalOp, hflags .pbFault, hflags .eqOverflow,
      forall_rbFault_iff.mpr fun i => hflags (.rbFault i)⟩

theorem State.FaultsInv.congr {s t : State} (hs : s.FaultsInv) (h : SameFaults s t) : t.FaultsInv := by
  simp only [faultsInv_iff, h.flag, h.faults]
  exact faultsInv_iff.mp hs

/-- A fault is recorded in the step that sets its flag, and the faults before it stay (R140). -/
theorem State.FaultsInv.raise {s : State} (hs : s.FaultsInv) (f : BlockFault) : (raise f s).FaultsInv := by
  obtain ⟨hsorted, hflags⟩ := faultsInv_iff.mp hs
  simp only [faultsInv_iff, raise_faults]
  refine ⟨insertFault_sorted hsorted, fun g hg => ?_⟩
  rcases (flag_raise f s g).2 hg with hold | rfl
  · exact (hflags g hold).mono fun _ hc => mem_insertFault.mpr (.inr hc)
  · exact f.flag_recorded (mem_insertFault.mpr (.inl rfl))

theorem flag_blockReset (s : State) (g : StickyFlag) : (blockReset s).flag g = false := by
  cases g with
  | rbFault i => rw [State.flag, blockReset_ring]; rfl
  | _ => rfl

/-- Every operation keeps a fault recorded behind every set flag; a reset clears the flags. -/
theorem exec_faultsInv {i : Instr} {s t : State} (hs : s.FaultsInv) (h : exec i s = .next t) : t.FaultsInv := by
  by_cases hne : i = .topReset
  · subst hne
    cases h
    exact faultsInv_iff.mpr ⟨hs.sorted, fun g hg => by rw [flag_blockReset] at hg; cases hg⟩
  · rcases exec_faultStep h hne with h | ⟨f, -, h⟩
    · exact hs.congr h
    · exact (hs.raise f).congr h

/-- Settles O56: an operation takes at most one fault, which sets its flag and records it together. -/
theorem faultRecordInvariantIsKept : Obligations.FaultRecordInvariantIsKept := fun _ _ =>
  step_keeps (fun _ _ _ hs => hs.congr ⟨fun _ => rfl, rfl⟩)
    (fun _ hs => (hs.raise .illegalOp).congr (sameFaults_respond _ _)) (fun _ _ _ => exec_faultsInv)

/-- Every operation keeps every recorded fault. -/
theorem exec_mem_faults {i : Instr} {s t : State} {c : FaultCode} (hc : c ∈ s.faults) (h : exec i s = .next t) :
    c ∈ t.faults := by
  by_cases hne : i = .topReset
  · subst hne
    cases h
    exact hc
  · exact (exec_faultStep h hne).mem_faults hc

/-- Settles O50: an operation adds at most one fault to the set, and a reset leaves it alone. -/
theorem faultSetOnlyGrows : Obligations.FaultSetOnlyGrows := fun _ _ h c hc =>
  step_keeps (P := fun s => c ∈ s.faults) (fun _ _ _ => id)
    (fun s hs => by rw [reject_faults]; exact mem_insertFault.mpr (.inr hs)) (fun _ _ _ => exec_mem_faults) hc h

/-! Reset -/

/-- A block reset gives every field its reset value (R141). -/
theorem hardwareReset_blockReset (s : State) : HardwareReset (blockReset s) :=
  ⟨rfl, rfl, rfl, rfl, rfl, List.length_replicate,
    fun i => by rw [blockReset_ring]; exact ⟨rfl, rfl, rfl, rfl, fun _ => rfl⟩,
    rfl, rfl, fun _ => rfl, rfl, rfl, rfl, rfl, rfl, rfl, rfl, rfl, rfl⟩

/-- Settles O14: TOP_RESET is the block reset, which writes none of these. -/
theorem resetKeepsWhatIsNotTheBlocks : Obligations.ResetKeepsWhatIsNotTheBlocks := fun s =>
  ⟨blockReset s, rfl, blockReset_faults s, blockReset_binding s, blockReset_pending s, blockReset_schedule s,
    blockReset_resetDone s, blockReset_response s⟩

/-! Sticky flags -/

/-- A step keeps every set flag, or it is a reset of the whole block. -/
theorem step_sticky {s t : State} (h : step s = .next t) :
    (∀ g, s.flag g = true → t.flag g = true) ∨ HardwareReset t := by
  obtain ⟨u, v, hsu, htv, hv⟩ := step_next h
  have hu : ∀ g, u.flag g = s.flag g := fun _ => by rw [hsu]; rfl
  have ht : ∀ g, t.flag g = v.flag g := fun _ => by rw [htv]; rfl
  have hreset : v = blockReset u → HardwareReset t := fun e => by
    rw [htv, e]
    exact hardwareReset_blockReset u
  simp only [← hu, ht]
  rcases hv with rfl | e | rfl | ⟨i, hi⟩
  · exact .inl fun _ => id
  · exact .inr (hreset e)
  · exact .inl fun g => (flag_raise .illegalOp u g).1
  · by_cases hne : i = .topReset
    · subst hne
      cases hi
      exact .inr (hreset rfl)
    · exact .inl fun _ => (exec_faultStep hi hne).sticky

/-- TOP_STATUS is 0 exactly when none of its four flags is set (R32). -/
theorem faultFree_iff (s : State) : faultFree s ↔
    s.illegalOp = false ∧ (∀ r ∈ s.rings, r.rbFault = false) ∧ s.queue.pbFault = false ∧ s.queue.eqOverflow = false := by
  have hrings : (∀ r ∈ s.rings, r.rbFault = false) ↔ anyRbFault s = false := by simp [anyRbFault]
  rw [hrings, faultFree, topStatusWord]
  generalize s.illegalOp = illegal, anyRbFault s = ring, s.queue.pbFault = pushBack, s.queue.eqOverflow = overflow
  revert illegal ring pushBack overflow
  decide

/-- Settles O49: an operation takes at most one fault, which clears no flag and sets its own; a step that runs no operation
sets ILLEGAL_OP's, resets the block or leaves the flags alone. -/
theorem faultFlagsAreSticky : Obligations.FaultFlagsAreSticky := by
  refine ⟨fun i s t h hne => ?_, fun s t h => ?_, faultFree_iff⟩
  · have hstep := exec_faultStep h hne
    have keep : ∀ g, s.flag g = true → t.flag g = true := fun _ => hstep.sticky
    have own : ∀ g, t.flag g = true → s.flag g = true ∨ SetsFlag i s g := fun _ => hstep.newly_set
    exact ⟨keep .illegalOp, keep .pbFault, keep .eqOverflow, fun j => keep (.rbFault j),
      own .illegalOp, own .pbFault, own .eqOverflow, fun j => own (.rbFault j)⟩
  · exact (step_sticky h).imp_left fun keep =>
      ⟨keep .illegalOp, keep .pbFault, keep .eqOverflow, fun j => keep (.rbFault j)⟩

end Sys2Proof.Machine

/-! PROOF. The statements on a block with nothing to run, and on the values and the invariant that a reset leaves it with
(70_reset_and_hazards.md R141, R142). -/

namespace Sys2Proof.Machine

/-! Turns without an operation -/

/-- An agent with nothing to do has no first item. -/
theorem takeFirst_eq_none {a : Agent} {ps : List Pending} (h : ∀ p ∈ ps, p.agent ≠ a) : takeFirst a ps = none := by
  refine Option.eq_none_iff_forall_ne_some.mpr fun x hx => ?_
  obtain ⟨before, after, rfl, -⟩ := takeFirst_eq_some hx
  exact h _ List.mem_append_cons_self rfl

theorem step_of_schedule_nil {s : State} (hs : s.schedule = []) : step s = .next s := by
  simp only [step, hs]

/-- A chosen agent with nothing to do is passed over (log 4). -/
theorem step_of_takeFirst_none {s : State} {a : Agent} {turns : List Turn} (hs : s.schedule = .agent a :: turns)
    (hf : takeFirst a s.pending = none) : step s = .next (s.setSchedule turns) := by
  simp only [step, hs, runTurn, runAgent, State.setSchedule_pending, hf]

theorem step_of_resetInput {s : State} {turns : List Turn} (hs : s.schedule = .resetInput :: turns) :
    step s = .next ((blockReset s).setSchedule turns) := by
  simp only [step, hs]
  rfl

/-- Settles O11: without a turn, or with a turn of an agent that has no item, no operation runs. -/
theorem idleBlockKeepsItsState : Obligations.IdleBlockKeepsItsState := fun _ =>
  ⟨step_of_schedule_nil, fun _ _ hs hp => step_of_takeFirst_none hs (takeFirst_eq_none hp)⟩

/-! What a reset leaves -/

theorem faultFree_blockReset (s : State) : faultFree (blockReset s) := by
  have hrings : ∀ r ∈ (blockReset s).rings, r.rbFault = false := fun r hr => by
    rw [List.eq_of_mem_replicate hr]
    rfl
  exact (faultFree_iff _).mpr ⟨rfl, hrings, rfl, rfl⟩

theorem toread_reset (p : Params) : toread p .reset = 0 := modSub_self _ _

theorem towrite_reset (p : Params) : towrite p .reset = p.rbCapacity - 1 := by rw [towrite, toread_reset, Nat.sub_zero]

theorem eqCount_reset (p : Params) : eqCount p .reset = 0 := modSub_self _ _

/-- A reset of legal parameters meets the invariant from any state: of what it keeps, the invariant asks only that the fault
set be canonical (R140). -/
theorem blockReset_inv {s : State} (hp : s.params.WF) (hf : s.faults.Pairwise (fun c d => c.number < d.number)) :
    (blockReset s).Inv where
  rings := blockReset_ringsInv hp
  queue := ⟨hp, EventQueue.reset_inv hp⟩
  asm := Assembler.reset_inv
  faults := faultsInv_iff.mpr ⟨hf, fun g hg => by rw [flag_blockReset] at hg; cases hg⟩

/-- Resetting the machine right after reset changes nothing. -/
theorem blockReset_reset : blockReset State.reset = State.reset := rfl

/-- Settles O12: the state after reset is a block reset's. -/
theorem resetStateHasTheSpecValues : Obligations.ResetStateHasTheSpecValues := by
  rw [Obligations.ResetStateHasTheSpecValues, ← blockReset_reset]
  exact ⟨hardwareReset_blockReset _, faultFree_blockReset _⟩

/-- Settles O13: TOP_RESET and the reset input are both the block reset, after which nothing is held. -/
theorem resetRestoresEveryField : Obligations.ResetRestoresEveryField := by
  intro s _
  refine ⟨rfl, blockReset s, rfl, fun _ => step_of_resetInput, hardwareReset_blockReset s, blockReset_params s,
    faultFree_blockReset s, fun i => ?_, eqCount_reset _⟩
  rw [blockReset_ring]
  exact ⟨toread_reset _, towrite_reset _⟩

/-- Settles O57: the state after reset is a block reset's, with legal parameters and no fault recorded. -/
theorem resetStateIsGood : Obligations.ResetStateIsGood := by
  rw [Obligations.ResetStateIsGood, ← blockReset_reset]
  exact blockReset_inv conventions_wf .nil

end Sys2Proof.Machine
